-- ==== Sys2Proof/Word.lean ====
section
/-! DEFINITION. The word type and the widths of the ports (rules R5, R6, R61, R62). -/

namespace Sys2Proof

/-- An operand or result word: 32 bits numbered 31 down to 0 (R6). -/
abbrev Word := BitVec 32

/-- The default of `OP_W`, the width of an operation code (R5, D3). Commands, decoding and encoding take the width
as an argument `opW`; the machine has this one (log 22). -/
abbrev OP_W : Nat := 8

/-- `CMD_W` for codes of `opW` bits: R61 puts the code above two operand words (R5, D3). -/
abbrev commandWidth (opW : Nat) : Nat := opW + 32 + 32

/-- The default of `CMD_W`, `commandWidth OP_W` (R5, D3). -/
abbrev CMD_W : Nat := 72

/-- An operation code, `CMD[71:64]` (R61). -/
abbrev OpCode := BitVec OP_W

/-- A command word `{op, a, b}`, the only instruction length (R61, R66). -/
abbrev CommandWord := BitVec CMD_W

/-- A response word `{ill, r}` (R62). -/
abbrev ResponseWord := BitVec 33

end Sys2Proof
end

