-- ==== Sys2Proof/Syntax.lean ====
section
/-! DEFINITION. The instructions, one constructor per row of the operation-code map (R64), the raw
command they travel in (R61), and the abstract form of a command-script line (R67, R68). -/

namespace Sys2Proof

/-- An instruction: one of the 32 operations of R64 with the operands its format uses. A format-U
operation has the operand `a`; a format-B operation has `a` and `b` (R61). -/
inductive Instr where
  /-- `0x00 PASS a` (R110). -/
  | pass (a : Word)
  /-- `0x01 GETSIGN a` (R111). -/
  | getsign (a : Word)
  /-- `0x02 GETEXP a` (R112). -/
  | getexp (a : Word)
  /-- `0x03 GETEXPV a` (R113). -/
  | getexpv (a : Word)
  /-- `0x04 GETMANT a` (R114). -/
  | getmant (a : Word)
  /-- `0x05 SETSIGN a, b` (R115). -/
  | setsign (a b : Word)
  /-- `0x06 SETEXP a, b` (R116). -/
  | setexp (a b : Word)
  /-- `0x07 SETMANT a, b` (R117). -/
  | setmant (a b : Word)
  /-- `0x08 NORM12 a` (R118). -/
  | norm12 (a : Word)
  /-- `0x10 ABS a` (R130). -/
  | abs (a : Word)
  /-- `0x11 COPYSIGN a, b` (R131). -/
  | copysign (a b : Word)
  /-- `0x12 FLOOR a` (R133). -/
  | floor (a : Word)
  /-- `0x13 CEIL a` (R134). -/
  | ceil (a : Word)
  /-- `0x14 TRUNC a` (R132). -/
  | trunc (a : Word)
  /-- `0x15 ROUND a` (R136). -/
  | round (a : Word)
  /-- `0x16 FRACT a` (R135). -/
  | fract (a : Word)
  /-- `0x20 INVSQRT a` (R150). -/
  | invsqrt (a : Word)
  /-- `0x21 SQRT a` (R151). -/
  | sqrt (a : Word)
  /-- `0x22 INV a` (R152). -/
  | inv (a : Word)
  /-- `0x30 COS a` (R161). -/
  | cos (a : Word)
  /-- `0x31 SIN a` (R162). -/
  | sin (a : Word)
  /-- `0x32 TAN a` (R163). -/
  | tan (a : Word)
  /-- `0x40 ATAN a` (R177). -/
  | atan (a : Word)
  /-- `0x41 ATANNORM a` (R176). -/
  | atannorm (a : Word)
  /-- `0x42 ATAN2 a, b`, with `a = y` and `b = x` (R179, C4). -/
  | atan2 (a b : Word)
  /-- `0x43 ATAN2NORM a, b`, with `a = y` and `b = x` (R178, C4). -/
  | atan2norm (a b : Word)
  /-- `0x50 LN a` (R191). -/
  | ln (a : Word)
  /-- `0x51 EXP a` (R193). -/
  | exp (a : Word)
  /-- `0x52 LOG2 a` (R194). -/
  | log2 (a : Word)
  /-- `0x53 LOG10 a` (R195). -/
  | log10 (a : Word)
  /-- `0x54 LOG a, b`, with `a = x` and `b = base` (R196). -/
  | log (a b : Word)
  /-- `0x55 POWF a, b`, with `a = x` and `b = n` (R197). -/
  | powf (a b : Word)
  deriving DecidableEq, Repr

/-- A command as it stands on the command port of a unit with codes of `opW` bits: any operation code with two
operand words (R61). Without the argument `Command` is the machine's, with a code of `OP_W` bits (log 22). -/
structure Command (opW : Nat := OP_W) where
  /-- `cmd_op`. -/
  op : BitVec opW
  /-- `cmd_a`. -/
  a : Word
  /-- `cmd_b`. -/
  b : Word
  deriving DecidableEq, Repr

/-- The forms an operand of a command-script line may take (R67). -/
inductive Operand where
  /-- A word literal, `0x3F800000`. -/
  | word (w : Word)
  /-- A decimal literal `±digits · 10^exp10`, meaning the binary32 word nearest to it. -/
  | decimal (neg : Bool) (digits : Nat) (exp10 : Int)
  /-- `inf`. -/
  | inf
  /-- `-inf`. -/
  | negInf
  /-- `nan`. -/
  | nan
  /-- `%name`, the result word of the earlier line so labelled. -/
  | result (name : String)
  deriving DecidableEq, Repr

/-- One line of a command script, `[%name =] MNEMONIC operand_a [, operand_b]` (R67). -/
structure ScriptLine where
  /-- The label under which later lines refer to the result. -/
  label : Option String
  /-- A name of R64 or a pseudo-instruction of R68, upper case. -/
  mnemonic : String
  /-- The first operand, the receiver. -/
  a : Operand
  /-- The second operand of a format-B line. -/
  b : Option Operand
  deriving DecidableEq, Repr

end Sys2Proof
end

