-- ==== Sys2Proof/WellFormed.lean ====
section
/-! DEFINITION. Which commands are legal (R64, R65) and which instructions and script lines are well formed
(R63, R67). -/

namespace Sys2Proof

/-- The last function number of a family, or none where R65 leaves the whole family unused: the ranges
`0x09` to `0x0F`, `0x17` to `0x1F`, `0x23` to `0x2F`, `0x33` to `0x3F`, `0x44` to `0x4F` and `0x56` to
`0xFF` are illegal. -/
def lastFunction (family : Nat) : Option Nat :=
  if family = 0 then some 0x8
  else if family = 1 then some 0x6
  else if family = 2 then some 0x2
  else if family = 3 then some 0x2
  else if family = 4 then some 0x3
  else if family = 5 then some 0x5
  else none

/-- `op[7:4]` is the family and `op[3:0]` the function within it (R61); a code is legal when R65 does
not list it. -/
def OpCode.legal {opW : Nat} (op : BitVec opW) : Bool :=
  match lastFunction (op.toNat / 16) with
  | some last => decide (op.toNat % 16 ≤ last)
  | none => false

/-- A command is well formed when its operation code is legal; no operand value makes a command
illegal (R63, R65). -/
def Command.wellFormed {opW : Nat} (c : Command opW) : Bool := OpCode.legal c.op

/-- Every instruction is well formed: its operands are whole words used unchanged, and no operand
value makes a command illegal (R61, R63). -/
def Instr.wellFormed : Instr → Bool
  | .pass _ | .getsign _ | .getexp _ | .getexpv _ | .getmant _ | .norm12 _ => true
  | .setsign _ _ | .setexp _ _ | .setmant _ _ => true
  | .abs _ | .floor _ | .ceil _ | .trunc _ | .round _ | .fract _ => true
  | .copysign _ _ => true
  | .invsqrt _ | .sqrt _ | .inv _ => true
  | .cos _ | .sin _ | .tan _ => true
  | .atan _ | .atannorm _ => true
  | .atan2 _ _ | .atan2norm _ _ => true
  | .ln _ | .exp _ | .log2 _ | .log10 _ => true
  | .log _ _ | .powf _ _ => true

/-- The names a script line may start with and the number of operands each takes: the 32 of R64 and
the two pseudo-instructions of R68. -/
def scriptNames : List (String × Nat) :=
  [("PASS", 1), ("GETSIGN", 1), ("GETEXP", 1), ("GETEXPV", 1), ("GETMANT", 1), ("SETSIGN", 2),
   ("SETEXP", 2), ("SETMANT", 2), ("NORM12", 1)] ++
  [("ABS", 1), ("COPYSIGN", 2), ("FLOOR", 1), ("CEIL", 1), ("TRUNC", 1), ("ROUND", 1), ("FRACT", 1)] ++
  [("INVSQRT", 1), ("SQRT", 1), ("INV", 1), ("COS", 1), ("SIN", 1), ("TAN", 1)] ++
  [("ATAN", 1), ("ATANNORM", 1), ("ATAN2", 2), ("ATAN2NORM", 2)] ++
  [("LN", 1), ("EXP", 1), ("LOG2", 1), ("LOG10", 1), ("LOG", 2), ("POWF", 2)] ++
  [("TOBITS", 1), ("FROMBITS", 1)]

/-- The number of operands a line has. -/
def ScriptLine.operandCount (l : ScriptLine) : Nat :=
  match l.b with
  | none => 1
  | some _ => 2

/-- A script line is well formed when its name is one of R64 or R68 and it has as many operands as
that name's format (R67): a format-U line has one, a format-B line has two. -/
def ScriptLine.wellFormed (l : ScriptLine) : Bool :=
  decide (scriptNames.lookup l.mnemonic = some l.operandCount)

end Sys2Proof
end

