-- ==== Sys2Proof/Decode.lean ====
section
/-! DEFINITION. Decoding of the 72-bit command word (R61, R63, R64, R65), total, with the illegal codes
rejected by name, and the encoder written from the same map. -/

namespace Sys2Proof

/-- Why a command word stands for no instruction, in a unit with codes of `opW` bits. -/
inductive DecodeError (opW : Nat := OP_W) where
  /-- The operation code is none of the 32 that R64 defines (R65). -/
  | illegalOpCode (op : BitVec opW)
  deriving DecidableEq, Repr

/-- The three fields of a command word, the code above the operand words (R61). -/
def Command.ofWord {opW : Nat} (w : BitVec (commandWidth opW)) : Command opW where
  op := w.extractLsb' 64 opW
  a := w.extractLsb' 32 32
  b := w.extractLsb' 0 32

/-- The command word `{op, a, b}` (R61). -/
def Command.toWord {opW : Nat} (c : Command opW) : BitVec (commandWidth opW) := c.op ++ c.a ++ c.b

/-- The operation-code map (R64). Decoding looks at `op` only to choose the operation, never at `a` or
`b` (R63); a format-U operation drops `b` (R61). -/
def decodeCommand {opW : Nat} (c : Command opW) : Except (DecodeError opW) Instr :=
  match c.op.toNat with
  | 0x00 => .ok (.pass c.a)
  | 0x01 => .ok (.getsign c.a)
  | 0x02 => .ok (.getexp c.a)
  | 0x03 => .ok (.getexpv c.a)
  | 0x04 => .ok (.getmant c.a)
  | 0x05 => .ok (.setsign c.a c.b)
  | 0x06 => .ok (.setexp c.a c.b)
  | 0x07 => .ok (.setmant c.a c.b)
  | 0x08 => .ok (.norm12 c.a)
  | 0x10 => .ok (.abs c.a)
  | 0x11 => .ok (.copysign c.a c.b)
  | 0x12 => .ok (.floor c.a)
  | 0x13 => .ok (.ceil c.a)
  | 0x14 => .ok (.trunc c.a)
  | 0x15 => .ok (.round c.a)
  | 0x16 => .ok (.fract c.a)
  | 0x20 => .ok (.invsqrt c.a)
  | 0x21 => .ok (.sqrt c.a)
  | 0x22 => .ok (.inv c.a)
  | 0x30 => .ok (.cos c.a)
  | 0x31 => .ok (.sin c.a)
  | 0x32 => .ok (.tan c.a)
  | 0x40 => .ok (.atan c.a)
  | 0x41 => .ok (.atannorm c.a)
  | 0x42 => .ok (.atan2 c.a c.b)
  | 0x43 => .ok (.atan2norm c.a c.b)
  | 0x50 => .ok (.ln c.a)
  | 0x51 => .ok (.exp c.a)
  | 0x52 => .ok (.log2 c.a)
  | 0x53 => .ok (.log10 c.a)
  | 0x54 => .ok (.log c.a c.b)
  | 0x55 => .ok (.powf c.a c.b)
  | _ => .error (.illegalOpCode c.op)

/-- The instruction a command word with a code of `opW` bits stands for (R61, R63). -/
def decodeAt {opW : Nat} (w : BitVec (commandWidth opW)) : Except (DecodeError opW) Instr :=
  decodeCommand (Command.ofWord w)

/-- The instruction a command word of the machine stands for (R61, R63). -/
def decode (w : CommandWord) : Except DecodeError Instr := decodeAt (opW := OP_W) w

/-- The command that requests an instruction: the code of R64 in `opW` bits with its operands. A format-U line is
encoded with `b = 0x00000000` (R67). -/
def Instr.commandAt (opW : Nat) : Instr → Command opW
  | .pass a => ⟨.ofNat opW 0x00, a, 0#32⟩
  | .getsign a => ⟨.ofNat opW 0x01, a, 0#32⟩
  | .getexp a => ⟨.ofNat opW 0x02, a, 0#32⟩
  | .getexpv a => ⟨.ofNat opW 0x03, a, 0#32⟩
  | .getmant a => ⟨.ofNat opW 0x04, a, 0#32⟩
  | .setsign a b => ⟨.ofNat opW 0x05, a, b⟩
  | .setexp a b => ⟨.ofNat opW 0x06, a, b⟩
  | .setmant a b => ⟨.ofNat opW 0x07, a, b⟩
  | .norm12 a => ⟨.ofNat opW 0x08, a, 0#32⟩
  | .abs a => ⟨.ofNat opW 0x10, a, 0#32⟩
  | .copysign a b => ⟨.ofNat opW 0x11, a, b⟩
  | .floor a => ⟨.ofNat opW 0x12, a, 0#32⟩
  | .ceil a => ⟨.ofNat opW 0x13, a, 0#32⟩
  | .trunc a => ⟨.ofNat opW 0x14, a, 0#32⟩
  | .round a => ⟨.ofNat opW 0x15, a, 0#32⟩
  | .fract a => ⟨.ofNat opW 0x16, a, 0#32⟩
  | .invsqrt a => ⟨.ofNat opW 0x20, a, 0#32⟩
  | .sqrt a => ⟨.ofNat opW 0x21, a, 0#32⟩
  | .inv a => ⟨.ofNat opW 0x22, a, 0#32⟩
  | .cos a => ⟨.ofNat opW 0x30, a, 0#32⟩
  | .sin a => ⟨.ofNat opW 0x31, a, 0#32⟩
  | .tan a => ⟨.ofNat opW 0x32, a, 0#32⟩
  | .atan a => ⟨.ofNat opW 0x40, a, 0#32⟩
  | .atannorm a => ⟨.ofNat opW 0x41, a, 0#32⟩
  | .atan2 a b => ⟨.ofNat opW 0x42, a, b⟩
  | .atan2norm a b => ⟨.ofNat opW 0x43, a, b⟩
  | .ln a => ⟨.ofNat opW 0x50, a, 0#32⟩
  | .exp a => ⟨.ofNat opW 0x51, a, 0#32⟩
  | .log2 a => ⟨.ofNat opW 0x52, a, 0#32⟩
  | .log10 a => ⟨.ofNat opW 0x53, a, 0#32⟩
  | .log a b => ⟨.ofNat opW 0x54, a, b⟩
  | .powf a b => ⟨.ofNat opW 0x55, a, b⟩

/-- The command word of an instruction in a unit with codes of `opW` bits (R61, R67). -/
def encodeAt (opW : Nat) (i : Instr) : BitVec (commandWidth opW) := (i.commandAt opW).toWord

/-- The command of the machine that requests an instruction. -/
abbrev Instr.command (i : Instr) : Command := i.commandAt OP_W

/-- The command word of an instruction of the machine (R61, R67). -/
def encode (i : Instr) : CommandWord := encodeAt OP_W i

/-- The command word whose bits are `w`, with every bit at or above `nbits` zero. The table numbers a
row's bits as the command word does, bit 0 the least significant bit of `b` (R61, R64; log 13). -/
def tableWord (nbits w : Nat) : CommandWord := BitVec.ofNat 72 (w % 2 ^ nbits)

/-- The instruction the decoder reads from a word of the operation-code table. -/
def decodeTableWord (nbits w : Nat) : Option Instr :=
  match decode (tableWord nbits w) with
  | .ok i => some i
  | .error _ => none

end Sys2Proof
end

