-- ==== Sys2Proof/Config.lean ====
section
/-! DEFINITION. What is fixed for the life of the hardware (R5, R29): the constant words of R97, the
named parameters, and the values the spec leaves open (opaque, without a body). -/

namespace Sys2Proof.Config

/-! ### Constant words of the datapath (R97) -/

/-- The canonical NaN (R83): the default of the parameter `CNAN`, the word that answers an undefined operation
code (R63, R65), and the meaning of `nan` in a script (R67). -/
def CNAN : Word := 0x7FC00000#32
/-- `+Inf` (R81). -/
def PINF : Word := 0x7F800000#32
/-- `-Inf` (R81). -/
def NINF : Word := 0xFF800000#32
/-- `+0` (R97). -/
def ZERO : Word := 0x00000000#32
/-- `-0` (R81). -/
def NZERO : Word := 0x80000000#32
/-- 0.25 (R97). -/
def QUARTER : Word := 0x3E800000#32
/-- 0.5 (R97). -/
def HALF : Word := 0x3F000000#32
/-- 1 (R97). -/
def ONE : Word := 0x3F800000#32
/-- 1.5 (R97). -/
def THREE_HALVES : Word := 0x3FC00000#32
/-- 2 (R97). -/
def TWO : Word := 0x40000000#32
/-- 4 (R97). -/
def FOUR : Word := 0x40800000#32
/-- 16 (R97). -/
def SIXTEEN : Word := 0x41800000#32
/-- The word nearest to π/2 (R97). -/
def FRAC_PI_2 : Word := 0x3FC90FDB#32
/-- The word nearest to ln 2 (R97). -/
def LN_2 : Word := 0x3F317218#32
/-- The word nearest to ln 10 (R97). -/
def LN_10 : Word := 0x40135D8E#32
/-- The word nearest to 1/ln 2 (R97). -/
def LOG2_E : Word := 0x3FB8AA3B#32

/-! ### Named parameters (R5, U12, U29) -/

/-- `ROUNDING`, the place where R84 names its rounding: from the sign of a real and its magnitude `N / D` in units
of the quantum, the whole number of quanta that stands for it. -/
abbrev Rounding := Bool → Nat → Nat → Nat

/-- The parameters of R5 that a rule reads and that the document does not fix: each is an argument of the
operations that read it, and constant for the life of the hardware (R23, R29). -/
structure Params where
  /-- `ROUNDING`, the rounding of every arithmetic primitive (R84, D6). -/
  rounding : Rounding
  /-- `CNAN`, the NaN an arithmetic primitive produces (R83, D7). -/
  cnan : Word
  /-- `FUSED`, whether a multiply followed by an add is one fused multiply-add (R93, D8). -/
  fused : Bool
  /-- `INVSQRT_MAGIC` (R150, D10). -/
  invsqrtMagic : Word
  /-- `COS_INV_2PI` (R160, D14). -/
  cosInv2Pi : Word
  /-- `COS_K` (R161, D14). -/
  cosK : Word
  /-- `ATAN_B` (R175, D17). -/
  atanB : Word
  /-- `LN_C0` (R191, D21). -/
  lnC0 : Word
  /-- `LN_C1` (R191, D21). -/
  lnC1 : Word
  /-- `LN_C2` (R191, D21). -/
  lnC2 : Word
  /-- `LN_C3` (R191, D21). -/
  lnC3 : Word
  /-- `LN_C4` (R191, D21). -/
  lnC4 : Word
  /-- `EXP_TERMS`, the number of series terms after the leading 1 (R193, D24). -/
  expTerms : Nat

/-! ### Open values -/

/-- How many commands beyond the first the unit may hold. OPEN (D4, U20): nothing is known of it (log 2). -/
opaque extraDepth : Nat

/-- `QDEPTH`, the number of commands the unit may hold: open, at least 1 (R5, R26, U20). -/
def qdepth : Nat := extraDepth + 1

/-- The word on `rsp_r` in a step with `rsp_valid = 0`: unspecified (R231, U22; log 5). -/
opaque idleR : Nat → Word

/-- The bit on `rsp_ill` in a step with `rsp_valid = 0`: unspecified (R231, U22; log 5). -/
opaque idleIll : Nat → Bool

end Sys2Proof.Config
end

