-- ==== Sys2Proof/Machine/Operands.lean ====
section
/-! DEFINITION. The operand words of a command: their binary32 fields (R80), classes (R82), exact values
(R81), and the assembly of a word from fields (R6). -/

namespace Sys2Proof.Machine

/-! ### Fields (R80) -/

/-- `S = w[31]`. -/
def signBit (w : Word) : Bool := w.getLsbD 31

/-- `E = w[30:23]`. -/
def expBits (w : Word) : BitVec 8 := w.extractLsb' 23 8

/-- `M = w[22:0]`. -/
def mantBits (w : Word) : BitVec 23 := w.extractLsb' 0 23

/-- `{s, e, m}`, the word with these fields (R6). -/
def ofFields (s : Bool) (e : BitVec 8) (m : BitVec 23) : Word := BitVec.ofBool s ++ e ++ m

/-- `int(w[30:23]) - 127`, an exact integer (R7, R94 (b)). -/
def expValue (w : Word) : Int := (expBits w).toNat - 127

/-! ### Classes (R82): they read bits only -/

/-- `isNaN(w)`. -/
def isNaN (w : Word) : Bool := decide (expBits w = 255#8) && decide (mantBits w ≠ 0#23)

/-- `isInf(w)`. -/
def isInf (w : Word) : Bool := decide (w.extractLsb' 0 31 = 0x7F800000#31)

/-- `isZero(w)`. -/
def isZero (w : Word) : Bool := decide (w.extractLsb' 0 31 = 0#31)

/-- `isSub(w)`. -/
def isSub (w : Word) : Bool := decide (expBits w = 0#8) && decide (mantBits w ≠ 0#23)

/-- `isFinite(w)`. -/
def isFinite (w : Word) : Bool := decide (expBits w ≠ 255#8)

/-! ### Values (R81)

Every finite value is a whole number of units of `2^-149`, the smallest positive subnormal. The model
computes with that whole number, so that every real of R84 to R91 is an exact integer or an exact
fraction of integers (log 11). -/

/-- The magnitude of a finite word in units of `2^-149`: `M` for a zero or subnormal word,
`(2^23 + M) · 2^(E-1)` for a normal one (R81). -/
def magnitude (w : Word) : Nat :=
  if expBits w = 0#8 then (mantBits w).toNat
  else (2 ^ 23 + (mantBits w).toNat) * 2 ^ ((expBits w).toNat - 1)

/-- `val(w) · 2^149` for a finite word, an exact integer; the two zeros both give 0 (R81). -/
def value (w : Word) : Int := if signBit w then -(magnitude w : Int) else magnitude w

/-- The sign of an integer as a sign bit: 1 if it is below zero (R84). -/
def signOf (x : Int) : Bool := decide (x < 0)

end Sys2Proof.Machine
end

