-- ==== Sys2Proof/Machine/Flags.lean ====
section
/-! DEFINITION. The block has no flags, condition codes or sticky exception flags, and no operation writes
or reads one (R22, R92). What stands in their place: the comparisons a rule uses inside itself (R89), and
the one bit that accompanies a response, `ill` (R62, R211). -/

namespace Sys2Proof.Machine

/-! ### Comparisons (R89): every comparison with a NaN is false -/

/-- The place of a word that is not a NaN on the extended number line: its value in units of `2^-149`,
with `-Inf` below and `+Inf` above every finite value, and `+0` and `-0` in one place (R81, R89). An
infinity has the magnitude `2^277` that the next binade after the largest finite value would begin
with. -/
def place (w : Word) : Int := value w

/-- `flt(a, b)`. -/
def flt (a b : Word) : Bool := !isNaN a && !isNaN b && decide (place a < place b)

/-- `fle(a, b)`. -/
def fle (a b : Word) : Bool := !isNaN a && !isNaN b && decide (place a ≤ place b)

/-- `feq(a, b)`. -/
def feq (a b : Word) : Bool := !isNaN a && !isNaN b && decide (place a = place b)

/-! ### The illegal-command flag -/

/-- `ill` of a response to a defined operation code: 0 whatever the operands are (R62, R211). -/
def illOfDefined : Bool := false

/-- `ill` of a response to an undefined operation code: 1 (R65, R211). -/
def illOfUndefined : Bool := true

end Sys2Proof.Machine
end

