-- ==== Sys2Proof/Machine/Numerics.lean ====
section
/-! DEFINITION. The internal arithmetic (R83 to R95): rounding, the four primitives, the bit operations on
signs, and the conversions. No primitive raises anything or sets a flag (R92); each rounds once (R93). -/

namespace Sys2Proof.Machine

open Sys2Proof.Config

/-! ### Rounding (R84) -/

/-- The integer nearest to `N / D`; if `N / D` is exactly halfway between two integers, the even one. -/
def nearestEven (N D : Nat) : Nat :=
  if 2 * (N % D) < D then N / D
  else if D < 2 * (N % D) then N / D + 1
  else if N / D % 2 = 0 then N / D
  else N / D + 1

/-- roundTiesToEven (D6): of a real of either sign the nearest whole number of quanta, the even one of two. -/
def tiesToEven : Rounding := fun _ N D => nearestEven N D

/-- The exponent of `q` in R84, in units of `2^-149`: `q = 2^(quantum N D)` units. It is 0 (`q = 2^-149`)
when the magnitude is below `2^-126`, that is below `2^23` units, and `floor(log2 m) - 23` otherwise. -/
def quantum (N D : Nat) : Nat := if N / D < 2 ^ 23 then 0 else Nat.log2 (N / D) - 23

/-- The word of sign `s` whose magnitude is exactly `v` units of `2^-149`, where `v` is 0 or has at most
24 significant bits (the last part of R84). From `2^128` on, that is from `2^277` units on, it is an
infinity; below `2^-126` it is a zero or a subnormal. -/
def ofMagnitude (s : Bool) (v : Nat) : Word :=
  if v < 2 ^ 23 then ofFields s 0#8 (BitVec.ofNat 23 v)
  else if 277 ≤ Nat.log2 v then ofFields s 255#8 0#23
  else ofFields s (BitVec.ofNat 8 (Nat.log2 v - 22)) (BitVec.ofNat 23 (v / 2 ^ (Nat.log2 v - 23)))

/-- `round32(x)` (R84) for the real `x` of sign `s` and magnitude `N / D` units of `2^-149`, `0 < D`, with gradual
underflow. A magnitude of zero gives the zero of sign `s` under roundTiesToEven. -/
def round32 (rounding : Rounding) (s : Bool) (N D : Nat) : Word :=
  ofMagnitude s (rounding s N (D * 2 ^ quantum N D) * 2 ^ quantum N D)

/-! ### Sign operations (R90): on all words, NaNs included -/

/-- `fabs(a) = a & 0x7FFFFFFF`. -/
def fabs (a : Word) : Word := a &&& 0x7FFFFFFF#32

/-- `fneg(a) = a ^ 0x80000000`. -/
def fneg (a : Word) : Word := a ^^^ 0x80000000#32

/-! ### Arithmetic primitives (R85 to R88) -/

/-- The infinity of sign `s`, `{s, 0xFF, 0}`. -/
def infOf (s : Bool) : Word := ofFields s 255#8 0#23

/-- The zero of sign `s`, `{s, 0x00, 0}`. -/
def zeroOf (s : Bool) : Word := ofFields s 0#8 0#23

/-- `fadd(a, b)` (R85). -/
def fadd (p : Params) (a b : Word) : Word :=
  if isNaN a || isNaN b then p.cnan
  else if isInf a && isInf b && (signBit a != signBit b) then p.cnan
  else if isInf a then a
  else if isInf b then b
  else if value a + value b ≠ 0 then
    round32 p.rounding (signOf (value a + value b)) (value a + value b).natAbs 1
  else if isZero a && isZero b && signBit a && signBit b then NZERO
  else ZERO

/-- `fsub(a, b) = fadd(a, fneg(b))` (R86). -/
def fsub (p : Params) (a b : Word) : Word := fadd p a (fneg b)

/-- `fmul(a, b)` (R87). The product of two numbers of units of `2^-149` is a number of units of
`2^-298`. -/
def fmul (p : Params) (a b : Word) : Word :=
  let s := signBit a ^^ signBit b
  if isNaN a || isNaN b then p.cnan
  else if (isInf a && isZero b) || (isZero a && isInf b) then p.cnan
  else if isInf a || isInf b then infOf s
  else if isZero a || isZero b then zeroOf s
  else round32 p.rounding s (magnitude a * magnitude b) (2 ^ 149)

/-- `fdiv(a, b)`, `a` over `b` (R88). Division by zero is no error. -/
def fdiv (p : Params) (a b : Word) : Word :=
  let s := signBit a ^^ signBit b
  if isNaN a || isNaN b then p.cnan
  else if isZero a && isZero b then p.cnan
  else if isInf a && isInf b then p.cnan
  else if isZero b || isInf a then infOf s
  else if isInf b || isZero a then zeroOf s
  else round32 p.rounding s (magnitude a * 2 ^ 149) (magnitude b)

/-! ### A multiply followed by an add (R93)

Two roundings in a unit with `FUSED = no`; one, a fused multiply-add, in a unit with `FUSED = yes` (log 21). -/

/-- The fused multiply-add `x·y + c`: the exact sum, a number of units of `2^-298`, is rounded once (log 21). -/
def fma (p : Params) (x y c : Word) : Word :=
  let s := signBit x ^^ signBit y
  let v := value x * value y + value c * 2 ^ 149
  if isNaN x || isNaN y || isNaN c then p.cnan
  else if (isInf x && isZero y) || (isZero x && isInf y) then p.cnan
  else if (isInf x || isInf y) && isInf c && (s != signBit c) then p.cnan
  else if isInf x || isInf y then infOf s
  else if isInf c then c
  else if v ≠ 0 then round32 p.rounding (signOf v) v.natAbs (2 ^ 149)
  else if (isZero x || isZero y) && isZero c && s && signBit c then NZERO
  else ZERO

/-- `fadd(c, fmul(x, y))` of a rule. -/
def addProduct (p : Params) (c x y : Word) : Word := if p.fused then fma p x y c else fadd p c (fmul p x y)

/-- `fadd(fmul(x, y), c)` of a rule. -/
def productAdd (p : Params) (x y c : Word) : Word := if p.fused then fma p x y c else fadd p (fmul p x y) c

/-- `fsub(c, fmul(x, y))` of a rule. -/
def subProduct (p : Params) (c x y : Word) : Word := if p.fused then fma p (fneg x) y c else fsub p c (fmul p x y)

/-! ### Conversions (R91) -/

/-- `i2f(n)`: the word nearest to the integer `n`, `0x00000000` for 0. -/
def i2f (p : Params) (n : Int) : Word := if n = 0 then ZERO else round32 p.rounding (signOf n) (n.natAbs * 2 ^ 149) 1

/-- `toint(w)`: the integer that a finite integer-valued word is. It is applied to no other word
(R91; log 15). -/
def toInt (w : Word) : Int := value w / 2 ^ 149

/-! ### Integer subtraction (R95) -/

/-- `x -_32 y`, modulo `2^32`, without overflow indication and without saturation. -/
def sub32 (x y : Word) : Word := x - y

end Sys2Proof.Machine
end

