-- ==== Sys2Proof/Machine/Defaults.lean ====
section
/-! DEFINITION. The parameters with which the machine is built: the defaults of R5. -/

namespace Sys2Proof.Config

open Sys2Proof.Machine

/-- The defaults of R5, with which the machine is built (log 8). -/
def params : Params where
  rounding := tiesToEven
  cnan := CNAN
  fused := false
  invsqrtMagic := 0x5F375A86#32
  cosInv2Pi := 0x3E22F983#32
  cosK := 0x3E666666#32
  atanB := 0x3F18A255#32
  lnC0 := 0xBFDEF31A#32
  lnC1 := 0x40348E95#32
  lnC2 := 0xBFBC278B#32
  lnC3 := 0x3EE4F4B8#32
  lnC4 := 0xBD67B6D6#32
  expTerms := 4

end Sys2Proof.Config
end

