-- ==== Sys2Proof/Machine/State.lean ====
section
/-! DEFINITION. The state of the unit and of the host that drives its ports (R20 to R30), as plain data,
with the state right after reset (R28, R231). -/

namespace Sys2Proof.Machine

/-- A response: one result word and the illegal-command flag (R62). -/
structure Response where
  /-- `RSP[31:0]`, the result word. -/
  r : Word
  /-- `RSP[32]`, set only for an undefined operation code (R65, R211). -/
  ill : Bool
  deriving DecidableEq, Repr

/-- What the host drives on the input ports in one step (R60), of a unit with codes of `opW` bits. -/
structure PortIn (opW : Nat := OP_W) where
  /-- `rst` (R230). -/
  rst : Bool
  /-- `cmd_valid`, `cmd_op`, `cmd_a`, `cmd_b`: the command offered. -/
  cmdValid : Bool
  /-- `cmd_op`, which is `CMD[71:64]` in the machine. -/
  cmdOp : BitVec opW
  /-- `CMD[63:32]`. -/
  cmdA : Word
  /-- `CMD[31:0]`. -/
  cmdB : Word
  /-- `rsp_ready`: the host takes a response. -/
  rspReady : Bool
  deriving DecidableEq, Repr

/-- What the unit drives on the output ports in one step (R60). -/
structure PortOut where
  /-- `cmd_ready`. -/
  cmdReady : Bool
  /-- `rsp_valid`. -/
  rspValid : Bool
  /-- `rsp_r`, to be read only while `rsp_valid = 1` (R231). -/
  rspR : Word
  /-- `rsp_ill`, to be read only while `rsp_valid = 1` (R231). -/
  rspIll : Bool
  deriving DecidableEq, Repr

/-- The ports of a host that does nothing: no reset, no command, no response taken. -/
def PortIn.idle {opW : Nat} : PortIn opW where
  rst := false
  cmdValid := false
  cmdOp := 0#opW
  cmdA := 0#32
  cmdB := 0#32
  rspReady := false

/-- The unit has no architectural state (R20 to R25); its one piece of state is the queue `q` (R26).
The other three fields are the model's: they hold the host's side and an index of free values. The width of the
codes is an argument, as R5 keeps it one; without it `State` is the machine's (log 22). -/
structure State (opW : Nat := OP_W) where
  /-- `Q`, the responses in flight, oldest first (R26). -/
  q : List Response
  /-- What the host drives on the input ports in the coming steps, soonest first; when it has ended the
  ports are idle (R30; log 3). -/
  host : List (PortIn opW)
  /-- The responses the host has taken, oldest first: what is observed of a run (R30; log 4). -/
  observed : List Response
  /-- The number of steps taken, the index of the free values of R231 (log 5). -/
  tick : Nat
  deriving DecidableEq, Repr

/-- The block raises no exception, on any operation and any operand (R210): there is no fault. -/
inductive Fault where
  deriving DecidableEq, Repr

/-- Why the model would stop without a meaning. -/
inductive Refusal where
  /-- An instruction without a meaning in the model; raised only by a refused arm of `exec`, of which there
  is none. Safe: the model would stop where the hardware goes on. -/
  | notModelled (mnemonic : String)
  deriving DecidableEq, Repr

/-- The machine right after reset: `Q = []` (R28, R231). The host has offered nothing and taken nothing. -/
def State.reset : State where
  q := []
  host := []
  observed := []
  tick := 0

end Sys2Proof.Machine
end

