-- ==== Sys2Proof/Machine/Ops.lean ====
section
/-! DEFINITION. The named operations on the state: answering a command, delivering a response, reset, and
the ports (R26, R60, R65, R230, R231). There is no memory and no register to operate on (R20, R40), and
no exception to take or to return from (R210, R214, R215). -/

namespace Sys2Proof.Machine

open Sys2Proof.Config

variable {opW : Nat}

/-- The response word `{ill, r}` (R62). -/
def Response.toWord (x : Response) : ResponseWord := BitVec.ofBool x.ill ++ x.r

/-- ACCEPT's effect: `Q <- Q ++ [(r, ill)]` (R26). -/
def State.push (s : State opW) (x : Response) : State opW := { s with q := s.q ++ [x] }

/-- The unit answers a defined operation code: the response carries the result word and `ill = 0`
(R62, R63). Nothing else changes (R8). -/
def State.answer (s : State opW) (r : Word) : State opW := s.push ⟨r, illOfDefined⟩

/-- The unit answers an undefined operation code: `r <- 0x7FC00000; ill <- 1` (R65, R211). -/
def State.answerIllegal (s : State opW) : State opW := s.push ⟨CNAN, illOfUndefined⟩

/-- DELIVER's effect: the host receives `head(Q)`; `Q <- tail(Q)` (R26). It is enabled only when `Q` is not
empty; on an empty queue it does nothing. -/
def State.deliver (s : State opW) : State opW :=
  match s.q with
  | [] => s
  | x :: rest => { s with q := rest, observed := s.observed ++ [x] }

/-- RESET's effect: `Q <- []`; the commands in flight are dropped without a response (R230). -/
def State.clear (s : State opW) : State opW := { s with q := [] }

/-- What the host drives on the input ports in this step; idle ports once its list has ended (log 3). -/
def State.portIn (s : State opW) : PortIn opW := s.host.headD PortIn.idle

/-- The step's inputs are used up and the index of the free values moves on (log 3, log 5). -/
def State.nextInputs (s : State opW) : State opW := { s with host := s.host.tail, tick := s.tick + 1 }

/-- `cmd_ready` of a unit that may hold `depth` commands: it can accept one when `|Q| < QDEPTH` and `rst` is
0 (R60, R230, R237). It reads `Q` as it stands when the step begins (log 6). -/
def State.cmdReadyAt (depth : Nat) (s : State opW) : Bool := decide (s.q.length < depth) && !s.portIn.rst

/-- `rsp_valid`: a response is available, `|Q| > 0`, and `rst` is 0 (R60, R230). -/
def State.rspValid (s : State opW) : Bool := !s.q.isEmpty && !s.portIn.rst

/-- The output ports in this step of a unit that may hold `depth` commands (R60). While `rsp_valid = 0`,
`rsp_r` and `rsp_ill` are free values (R231, U22; log 5). -/
def State.portOutAt (depth : Nat) (s : State opW) : PortOut where
  cmdReady := s.cmdReadyAt depth
  rspValid := s.rspValid
  rspR := if s.rspValid then (s.q.headD ⟨idleR s.tick, idleIll s.tick⟩).r else idleR s.tick
  rspIll := if s.rspValid then (s.q.headD ⟨idleR s.tick, idleIll s.tick⟩).ill else idleIll s.tick

/-- The output ports in this step (R60). -/
def State.portOut (s : State opW) : PortOut := s.portOutAt qdepth

/-- ACCEPT takes place in this step: `cmd_valid` and `cmd_ready` are both 1 (R60). -/
def State.acceptsAt (depth : Nat) (s : State opW) : Bool := s.portIn.cmdValid && s.cmdReadyAt depth

/-- DELIVER takes place in this step: `rsp_valid` and `rsp_ready` are both 1 (R60). -/
def State.delivers (s : State opW) : Bool := s.portIn.rspReady && s.rspValid

/-- The command on the input ports: `cmd_op`, `cmd_a` and `cmd_b`, sampled together (R42, R60). -/
def PortIn.command (i : PortIn opW) : Command opW := ⟨i.cmdOp, i.cmdA, i.cmdB⟩

end Sys2Proof.Machine
end

