-- ==== Sys2Proof/Machine/ArcTrig.lean ====
section
/-! DEFINITION. Family 4, ArcTrigCore (R175 to R179): the rational arctangent kernel, the one-operand and
the four-quadrant arctangents, in quarter-turns and in radians. -/

namespace Sys2Proof.Machine

open Sys2Proof.Config

/-! ### Result words -/

/-- `RAT(u)`, the first-octant kernel, in quarter-turns (R175). -/
def rat (p : Params) (u : Word) : Word :=
  let bu := fmul p p.atanB u
  let n := addProduct p bu u u
  let d := fadd p (fadd p ONE bu) n
  fdiv p n d

/-- `ATANNORM a`, arctangent in quarter-turns (R176). -/
def opAtanNorm (p : Params) (a : Word) : Word :=
  if isNaN a then p.cnan
  else
    let s := a &&& 0x80000000#32
    let t := fabs a
    let q := if flt ONE t then fsub p ONE (rat p (fdiv p ONE t)) else rat p t
    s ||| q

/-- `ATAN a`: `r <- fmul(FRAC_PI_2, ATANNORM(a))`, in radians (R177). -/
def opAtan (p : Params) (a : Word) : Word := fmul p FRAC_PI_2 (opAtanNorm p a)

/-- `q1` of R178: the angle of `(|x|, |y|)` in quarter-turns, in `[0, 1]`. -/
def octantAngle (p : Params) (ay ax : Word) : Word :=
  if isZero ax && isZero ay then ZERO
  else if flt ax ay then fsub p ONE (rat p (fdiv p ax ay))
  else rat p (fdiv p ay ax)

/-- `th` of R178: the first-quadrant angle moved into the quadrant of the sign bits of `x` and `y`. -/
def placeInQuadrant (p : Params) (xNeg yNeg : Bool) (q1 : Word) : Word :=
  match xNeg, yNeg with
  | false, false => q1
  | true, false => fsub p TWO q1
  | true, true => fadd p TWO q1
  | false, true => fsub p FOUR q1

/-- `ATAN2NORM a, b` with `a = y` and `b = x`, in quarter-turns, in `[0, 4)` (R178). -/
def opAtan2Norm (p : Params) (y x : Word) : Word :=
  if isNaN x || isNaN y then p.cnan
  else
    let th := placeInQuadrant p (signBit x) (signBit y) (octantAngle p (fabs y) (fabs x))
    if fle FOUR th then ZERO else th

/-- `ATAN2 a, b` with `a = y` and `b = x`, in radians, in `(-π, π]` (R179). -/
def opAtan2 (p : Params) (y x : Word) : Word :=
  let n := opAtan2Norm p y x
  fmul p FRAC_PI_2 (if flt TWO n then fsub p n FOUR else n)

/-! ### Meanings -/

/-- `ATAN` (R177). -/
def execAtan (a : Word) (s : State) : Host.Outcome State Fault Refusal := .next (s.answer (opAtan params a))

/-- `ATANNORM` (R176). -/
def execAtanNorm (a : Word) (s : State) : Host.Outcome State Fault Refusal := .next (s.answer (opAtanNorm params a))

/-- `ATAN2` (R179). -/
def execAtan2 (a b : Word) (s : State) : Host.Outcome State Fault Refusal := .next (s.answer (opAtan2 params a b))

/-- `ATAN2NORM` (R178). -/
def execAtan2Norm (a b : Word) (s : State) : Host.Outcome State Fault Refusal := .next (s.answer (opAtan2Norm params a b))

end Sys2Proof.Machine
end

