-- ==== Sys2Proof/Machine/BitDecompose.lean ====
section
/-! DEFINITION. Family 0, BitDecompose (R110 to R120): bit-field access, defined on all words, without
arithmetic and without exception for NaNs, infinities, zeros and subnormals (R119). -/

namespace Sys2Proof.Machine

/-! ### Result words -/

/-- `PASS a`: `r <- a` (R110). -/
def opPass (a : Word) : Word := a

/-- `GETSIGN a`: `r <- zext_32(a[31])` (R111). -/
def opGetSign (a : Word) : Word := (a.extractLsb' 31 1).setWidth 32

/-- `GETEXP a`: `r <- zext_32(a[30:23])` (R112). -/
def opGetExp (a : Word) : Word := (expBits a).setWidth 32

/-- `GETEXPV a`: `r <- sext_32(int(a[30:23]) - 127)` (R113). -/
def opGetExpV (a : Word) : Word := BitVec.ofInt 32 (expValue a)

/-- `GETMANT a`: `r <- zext_32(a[22:0])` (R114). -/
def opGetMant (a : Word) : Word := (mantBits a).setWidth 32

/-- `SETSIGN a, b`: `r <- {b[0], a[30:0]}` (R115). -/
def opSetSign (a b : Word) : Word := b.extractLsb' 0 1 ++ a.extractLsb' 0 31

/-- `SETEXP a, b`: `r <- {a[31], b[7:0], a[22:0]}` (R116). -/
def opSetExp (a b : Word) : Word := a.extractLsb' 31 1 ++ b.extractLsb' 0 8 ++ a.extractLsb' 0 23

/-- `SETMANT a, b`: `r <- {a[31:23], b[22:0]}` (R117). -/
def opSetMant (a b : Word) : Word := a.extractLsb' 23 9 ++ b.extractLsb' 0 23

/-- `NORM12 a`: `r <- {a[31], 0x7F, a[22:0]}` (R118). -/
def opNorm12 (a : Word) : Word := a.extractLsb' 31 1 ++ 0x7F#8 ++ a.extractLsb' 0 23

/-! ### Meanings -/

/-- `PASS` (R110). -/
def execPass (a : Word) (s : State) : Host.Outcome State Fault Refusal := .next (s.answer (opPass a))

/-- `GETSIGN` (R111). -/
def execGetSign (a : Word) (s : State) : Host.Outcome State Fault Refusal := .next (s.answer (opGetSign a))

/-- `GETEXP` (R112). -/
def execGetExp (a : Word) (s : State) : Host.Outcome State Fault Refusal := .next (s.answer (opGetExp a))

/-- `GETEXPV` (R113). -/
def execGetExpV (a : Word) (s : State) : Host.Outcome State Fault Refusal := .next (s.answer (opGetExpV a))

/-- `GETMANT` (R114). -/
def execGetMant (a : Word) (s : State) : Host.Outcome State Fault Refusal := .next (s.answer (opGetMant a))

/-- `SETSIGN` (R115). -/
def execSetSign (a b : Word) (s : State) : Host.Outcome State Fault Refusal := .next (s.answer (opSetSign a b))

/-- `SETEXP` (R116). -/
def execSetExp (a b : Word) (s : State) : Host.Outcome State Fault Refusal := .next (s.answer (opSetExp a b))

/-- `SETMANT` (R117). -/
def execSetMant (a b : Word) (s : State) : Host.Outcome State Fault Refusal := .next (s.answer (opSetMant a b))

/-- `NORM12` (R118). -/
def execNorm12 (a : Word) (s : State) : Host.Outcome State Fault Refusal := .next (s.answer (opNorm12 a))

end Sys2Proof.Machine
end

