-- ==== Sys2Proof/Machine/InvSqrt.lean ====
section
/-! DEFINITION. Family 2, InvSqrtCore (R150 to R153): the magic-number estimate with one Newton-Raphson
step. The same datapath is applied to every word; no operand class is special (D11). -/

namespace Sys2Proof.Machine

open Sys2Proof.Config

/-! ### Result words -/

/-- `i = INVSQRT_MAGIC -_32 (a >> 1)`, the estimate `y0` once read as a float (R150, R95). -/
def invSqrtEstimate (p : Params) (a : Word) : Word := sub32 p.invsqrtMagic (a >>> 1)

/-- One Newton-Raphson step `y·(1.5 − 0.5·x·y²)`, in the order and with the roundings of R150. -/
def newtonStep (p : Params) (a y0 : Word) : Word :=
  let h := fmul p HALF a
  fmul p y0 (subProduct p THREE_HALVES (fmul p h y0) y0)

/-- `INVSQRT a` (R150): one step, as the document fixes. -/
def opInvSqrt (p : Params) (a : Word) : Word := newtonStep p a (invSqrtEstimate p a)

/-- `SQRT a`: `r <- fmul(a, INVSQRT(a))` (R151). -/
def opSqrt (p : Params) (a : Word) : Word := fmul p a (opInvSqrt p a)

/-- `INV a`: `y = INVSQRT(a); r <- fmul(y, y)` (R152). -/
def opInv (p : Params) (a : Word) : Word :=
  let y := opInvSqrt p a
  fmul p y y

/-! ### Meanings -/

/-- `INVSQRT` (R150). -/
def execInvSqrt (a : Word) (s : State) : Host.Outcome State Fault Refusal := .next (s.answer (opInvSqrt params a))

/-- `SQRT` (R151). -/
def execSqrt (a : Word) (s : State) : Host.Outcome State Fault Refusal := .next (s.answer (opSqrt params a))

/-- `INV` (R152). -/
def execInv (a : Word) (s : State) : Host.Outcome State Fault Refusal := .next (s.answer (opInv params a))

end Sys2Proof.Machine
end

