-- ==== Sys2Proof/Machine/SignRound.lean ====
section
/-! DEFINITION. Family 1, SignRoundOps (R130 to R136): sign and rounding operations. `TRUNC` is the
exponent/mantissa split; the other four rounding operations are built on it (D26). -/

namespace Sys2Proof.Machine

open Sys2Proof.Config

/-! ### Result words -/

/-- `ABS a`: `r <- a & 0x7FFFFFFF` (R130). -/
def opAbs (a : Word) : Word := a &&& 0x7FFFFFFF#32

/-- `COPYSIGN a, b`: `r <- {b[31], a[30:0]}` (R131). -/
def opCopySign (a b : Word) : Word := b.extractLsb' 31 1 ++ a.extractLsb' 0 31

/-- `TRUNC a` (R132). -/
def opTrunc (a : Word) : Word :=
  if expValue a < 0 then ofFields (signBit a) 0#8 0#23
  else if 23 ≤ expValue a then a
  else a &&& ~~~((1#32 <<< (23 - expValue a).toNat) - 1#32)

/-- `FLOOR a` (R133). -/
def opFloor (p : Params) (a : Word) : Word :=
  if flt a (opTrunc a) then fsub p (opTrunc a) ONE else opTrunc a

/-- `CEIL a` (R134). -/
def opCeil (p : Params) (a : Word) : Word :=
  if flt (opTrunc a) a then fadd p (opTrunc a) ONE else opTrunc a

/-- `FRACT a`: `r <- fsub(a, TRUNC(a))` (R135). -/
def opFract (p : Params) (a : Word) : Word := fsub p a (opTrunc a)

/-- `ROUND a`: half away from zero, decided on the fraction (R136). -/
def opRound (p : Params) (a : Word) : Word :=
  if fle HALF (fabs (fsub p a (opTrunc a))) then fadd p (opTrunc a) (opCopySign ONE a) else opTrunc a

/-! ### Meanings -/

/-- `ABS` (R130). -/
def execAbs (a : Word) (s : State) : Host.Outcome State Fault Refusal := .next (s.answer (opAbs a))

/-- `COPYSIGN` (R131). -/
def execCopySign (a b : Word) (s : State) : Host.Outcome State Fault Refusal := .next (s.answer (opCopySign a b))

/-- `FLOOR` (R133). -/
def execFloor (a : Word) (s : State) : Host.Outcome State Fault Refusal := .next (s.answer (opFloor params a))

/-- `CEIL` (R134). -/
def execCeil (a : Word) (s : State) : Host.Outcome State Fault Refusal := .next (s.answer (opCeil params a))

/-- `TRUNC` (R132). -/
def execTrunc (a : Word) (s : State) : Host.Outcome State Fault Refusal := .next (s.answer (opTrunc a))

/-- `ROUND` (R136). -/
def execRound (a : Word) (s : State) : Host.Outcome State Fault Refusal := .next (s.answer (opRound params a))

/-- `FRACT` (R135). -/
def execFract (a : Word) (s : State) : Host.Outcome State Fault Refusal := .next (s.answer (opFract params a))

end Sys2Proof.Machine
end

