-- ==== Sys2Proof/Machine/LogExp.lean ====
section
/-! DEFINITION. Family 5, LogExpCore (R190 to R197): the logarithm by exponent and mantissa, the exponential
by argument split and series, and the operations composed of them. -/

namespace Sys2Proof.Machine

open Sys2Proof.Config

/-! ### Result words -/

/-- `p(m)` of R191, in Horner form. -/
def lnPoly (p : Params) (m : Word) : Word :=
  let p3 := addProduct p p.lnC3 p.lnC4 m
  let p2 := addProduct p p.lnC2 p3 m
  let p1 := addProduct p p.lnC1 p2 m
  addProduct p p.lnC0 p1 m

/-- `LN a` (R191): the four tests in the order written, then `e·ln 2 + ln(m)`. -/
def opLn (p : Params) (a : Word) : Word :=
  if isNaN a then p.cnan
  else if isZero a then NINF
  else if signBit a then p.cnan
  else if a = PINF then PINF
  else
    let e := expValue a
    let m := opNorm12 a
    productAdd p (i2f p e) LN_2 (lnPoly p m)

/-- The passes `for i = terms downto 1: s = fadd(ONE, fmul(fdiv(rr, i2f(i)), s))` of R193. -/
def expPasses (p : Params) (rr : Word) : Nat → Word → Word
  | 0, s => s
  | i + 1, s => expPasses p rr i (addProduct p ONE (fdiv p rr (i2f p (i + 1 : Nat))) s)

/-- The reconstruction `exp(x) = exp(r)·2^k` of R193, by setting the exponent field: `E2 >= 255` overflows to
`+Inf` and `E2 <= 0` underflows to `+0`, without a subnormal result. `k` does not wrap (R94 (c)). -/
def expReconstruct (s : Word) (k : Int) : Word :=
  let e2 : Int := (expBits s).toNat + k
  if 255 ≤ e2 then PINF
  else if e2 ≤ 0 then ZERO
  else opSetExp s (BitVec.ofInt 32 e2)

/-- `EXP a` (R193). -/
def opExp (p : Params) (a : Word) : Word :=
  if isNaN a then p.cnan
  else
    let t := fmul p a LOG2_E
    if t = PINF then PINF
    else if t = NINF then ZERO
    else
      let kf := opRound p t
      let rr := fmul p (fsub p t kf) LN_2
      expReconstruct (expPasses p rr p.expTerms ONE) (toInt kf)

/-- `LOG2 a`: `r <- fdiv(LN(a), LN_2)` (R194). -/
def opLog2 (p : Params) (a : Word) : Word := fdiv p (opLn p a) LN_2

/-- `LOG10 a`: `r <- fdiv(LN(a), LN_10)` (R195). -/
def opLog10 (p : Params) (a : Word) : Word := fdiv p (opLn p a) LN_10

/-- `LOG a, b` with `a = x` and `b = base`: `r <- fdiv(LN(a), LN(b))` (R196). -/
def opLog (p : Params) (a b : Word) : Word := fdiv p (opLn p a) (opLn p b)

/-- `POWF a, b` with `a = x` and `b = n`: `r <- EXP(fmul(b, LN(a)))` (R197). -/
def opPowf (p : Params) (a b : Word) : Word := opExp p (fmul p b (opLn p a))

/-! ### Meanings -/

/-- `LN` (R191). -/
def execLn (a : Word) (s : State) : Host.Outcome State Fault Refusal := .next (s.answer (opLn params a))

/-- `EXP` (R193). -/
def execExp (a : Word) (s : State) : Host.Outcome State Fault Refusal := .next (s.answer (opExp params a))

/-- `LOG2` (R194). -/
def execLog2 (a : Word) (s : State) : Host.Outcome State Fault Refusal := .next (s.answer (opLog2 params a))

/-- `LOG10` (R195). -/
def execLog10 (a : Word) (s : State) : Host.Outcome State Fault Refusal := .next (s.answer (opLog10 params a))

/-- `LOG` (R196). -/
def execLog (a b : Word) (s : State) : Host.Outcome State Fault Refusal := .next (s.answer (opLog params a b))

/-- `POWF` (R197). -/
def execPowf (a b : Word) (s : State) : Host.Outcome State Fault Refusal := .next (s.answer (opPowf params a b))

end Sys2Proof.Machine
end

