-- ==== Sys2Proof/Machine/Trig.lean ====
section
/-! DEFINITION. Family 3, TrigPolyCore (R160 to R163): range reduction to one period and the cosine
polynomial; sine and tangent are built on the cosine. Nothing is special-cased (D16). -/

namespace Sys2Proof.Machine

open Sys2Proof.Config

/-! ### Result words -/

/-- `reduce(a)`, `range_reduce`: the angle in turns, minus a quarter turn, in one period (R160). -/
def rangeReduce (p : Params) (a : Word) : Word :=
  let t := fmul p a p.cosInv2Pi
  fsub p t (fadd p QUARTER (opFloor p (fadd p t QUARTER)))

/-- `COS a` (R161). -/
def opCos (p : Params) (a : Word) : Word :=
  let w := rangeReduce p a
  let s := fmul p w (fmul p SIXTEEN (fsub p (fabs w) HALF))
  addProduct p s (fmul p p.cosK s) (fsub p (fabs s) ONE)

/-- `SIN a`: `r <- COS(fsub(a, FRAC_PI_2))` (R162). -/
def opSin (p : Params) (a : Word) : Word := opCos p (fsub p a FRAC_PI_2)

/-- `TAN a`: `r <- fdiv(SIN(a), COS(a))`, without a pole guard (R163). -/
def opTan (p : Params) (a : Word) : Word := fdiv p (opSin p a) (opCos p a)

/-! ### Meanings -/

/-- `COS` (R161). -/
def execCos (a : Word) (s : State) : Host.Outcome State Fault Refusal := .next (s.answer (opCos params a))

/-- `SIN` (R162). -/
def execSin (a : Word) (s : State) : Host.Outcome State Fault Refusal := .next (s.answer (opSin params a))

/-- `TAN` (R163). -/
def execTan (a : Word) (s : State) : Host.Outcome State Fault Refusal := .next (s.answer (opTan params a))

end Sys2Proof.Machine
end

