-- ==== Sys2Proof/Machine/Dispatch.lean ====
section
/-! DEFINITION. One arm per instruction: its meaning (R63, R64). -/

namespace Sys2Proof.Machine

def exec (i : Instr) (s : State) : Host.Outcome State Fault Refusal :=
  match i with
  | .pass a => Sys2Proof.Machine.execPass a s
  | .getsign a => Sys2Proof.Machine.execGetSign a s
  | .getexp a => Sys2Proof.Machine.execGetExp a s
  | .getexpv a => Sys2Proof.Machine.execGetExpV a s
  | .getmant a => Sys2Proof.Machine.execGetMant a s
  | .setsign a b => Sys2Proof.Machine.execSetSign a b s
  | .setexp a b => Sys2Proof.Machine.execSetExp a b s
  | .setmant a b => Sys2Proof.Machine.execSetMant a b s
  | .norm12 a => Sys2Proof.Machine.execNorm12 a s
  | .abs a => Sys2Proof.Machine.execAbs a s
  | .copysign a b => Sys2Proof.Machine.execCopySign a b s
  | .floor a => Sys2Proof.Machine.execFloor a s
  | .ceil a => Sys2Proof.Machine.execCeil a s
  | .trunc a => Sys2Proof.Machine.execTrunc a s
  | .round a => Sys2Proof.Machine.execRound a s
  | .fract a => Sys2Proof.Machine.execFract a s
  | .invsqrt a => Sys2Proof.Machine.execInvSqrt a s
  | .sqrt a => Sys2Proof.Machine.execSqrt a s
  | .inv a => Sys2Proof.Machine.execInv a s
  | .cos a => Sys2Proof.Machine.execCos a s
  | .sin a => Sys2Proof.Machine.execSin a s
  | .tan a => Sys2Proof.Machine.execTan a s
  | .atan a => Sys2Proof.Machine.execAtan a s
  | .atannorm a => Sys2Proof.Machine.execAtanNorm a s
  | .atan2 a b => Sys2Proof.Machine.execAtan2 a b s
  | .atan2norm a b => Sys2Proof.Machine.execAtan2Norm a b s
  | .ln a => Sys2Proof.Machine.execLn a s
  | .exp a => Sys2Proof.Machine.execExp a s
  | .log2 a => Sys2Proof.Machine.execLog2 a s
  | .log10 a => Sys2Proof.Machine.execLog10 a s
  | .log a b => Sys2Proof.Machine.execLog a b s
  | .powf a b => Sys2Proof.Machine.execPowf a b s

end Sys2Proof.Machine
end

