-- ==== Sys2Proof/Machine/Port.lean ====
section
/-! DEFINITION. One step at the ports: decode and execute (R63), ACCEPT, DELIVER and RESET (R26, R30, R60,
R213, R230), for a unit with
codes of `opW` bits that may hold `depth` commands. -/

namespace Sys2Proof.Machine

open Sys2Proof.Config

variable {opW : Nat}

/-- The result word of an instruction: `OP(a)` or `OP(a, b)` of R63, as one function of the parameters and the
instruction. -/
def result (p : Params) : Instr → Word
  | .pass a => opPass a
  | .getsign a => opGetSign a
  | .getexp a => opGetExp a
  | .getexpv a => opGetExpV a
  | .getmant a => opGetMant a
  | .setsign a b => opSetSign a b
  | .setexp a b => opSetExp a b
  | .setmant a b => opSetMant a b
  | .norm12 a => opNorm12 a
  | .abs a => opAbs a
  | .copysign a b => opCopySign a b
  | .floor a => opFloor p a
  | .ceil a => opCeil p a
  | .trunc a => opTrunc a
  | .round a => opRound p a
  | .fract a => opFract p a
  | .invsqrt a => opInvSqrt p a
  | .sqrt a => opSqrt p a
  | .inv a => opInv p a
  | .cos a => opCos p a
  | .sin a => opSin p a
  | .tan a => opTan p a
  | .atan a => opAtan p a
  | .atannorm a => opAtanNorm p a
  | .atan2 a b => opAtan2 p a b
  | .atan2norm a b => opAtan2Norm p a b
  | .ln a => opLn p a
  | .exp a => opExp p a
  | .log2 a => opLog2 p a
  | .log10 a => opLog10 p a
  | .log a b => opLog p a b
  | .powf a b => opPowf p a b

/-- `exec(op, a, b)` of R63: the response to a command, a function of the command and of the parameters alone
(R8). R63 writes the word that answers an undefined code as a constant, whatever the parameter `CNAN` is. -/
def respond (p : Params) (c : Command opW) : Response :=
  match decodeCommand c with
  | .ok i => ⟨result p i, illOfDefined⟩
  | .error _ => ⟨CNAN, illOfUndefined⟩

/-- What runs a decoded instruction: `exec` for the machine, `execWith p` for a unit built with other
parameters. -/
abbrev Executor (opW : Nat) := Instr → State opW → Host.Outcome (State opW) Fault Refusal

/-- Every instruction in a unit built with the parameters `p` (R5, R29): one response is added, and nothing else
changes. With the defaults it is `exec`. -/
def execWith (p : Params) : Executor opW := fun i s => .next (s.answer (result p i))

/-- ACCEPT of a command (R26): the decoded instruction runs, and an undefined operation code is answered
like any other command (R65, R211). -/
def accept (run : Executor opW) (c : Command opW) (s : State opW) :
    Host.Outcome (State opW) Fault Refusal :=
  match decodeCommand c with
  | .ok i => run i s
  | .error _ => .next s.answerIllegal

/-- The state in which a step's ACCEPT, if there is one, takes place: the inputs are used up, and the
response at the head of `Q` has been delivered if this step delivers one (R213 (c)). -/
def State.afterDeliver (s : State opW) : State opW := if s.delivers then s.nextInputs.deliver else s.nextInputs

/-- One step of a unit that may hold `depth` commands. While `rst` is 1 the queue is emptied and neither
ACCEPT nor DELIVER takes place: reset wins (R213 (b), R230). Otherwise DELIVER and ACCEPT take place when
their handshakes are complete, both in one step if both are (R213 (c)); a step with neither changes
nothing but its inputs. -/
def stepBy (run : Executor opW) (depth : Nat) (s : State opW) : Host.Outcome (State opW) Fault Refusal :=
  if s.portIn.rst then .next s.nextInputs.clear
  else if s.acceptsAt depth then accept run s.portIn.command s.afterDeliver
  else .next s.afterDeliver

/-- `stepBy` without the outcome; no step of `exec` or of `execWith p` faults or refuses (R210), so this is the
state it answers. -/
def nextBy (run : Executor opW) (depth : Nat) (s : State opW) : State opW :=
  match stepBy run depth s with
  | .next t => t
  | .fault _ => s
  | .refused _ => s

/-- `k` steps of a unit that may hold `depth` commands. -/
def runBy (run : Executor opW) (depth : Nat) : Nat → State opW → State opW
  | 0, s => s
  | k + 1, s => runBy run depth k (nextBy run depth s)

/-- The commands accepted in `k` steps, in the order of acceptance (R30, R46 (b)). -/
def acceptedBy (run : Executor opW) (depth : Nat) : Nat → State opW → List (Command opW)
  | 0, _ => []
  | k + 1, s =>
    (if s.acceptsAt depth then [s.portIn.command] else []) ++ acceptedBy run depth k (nextBy run depth s)

/-- The command word as the host drives it on the ports, with no reset: what makes a step run it, if the
unit can accept one. -/
def PortIn.offering (i : PortIn opW) (w : BitVec (commandWidth opW)) : PortIn opW :=
  { i with
    rst := false
    cmdValid := true
    cmdOp := (Command.ofWord w).op
    cmdA := (Command.ofWord w).a
    cmdB := (Command.ofWord w).b }

/-- The host offers the command word `w` in this step, and the unit has room for it: if `Q` is full it is
emptied (log 12). -/
def State.offerAt (depth : Nat) (s : State opW) (w : BitVec (commandWidth opW)) : State opW :=
  { s with
    q := if s.q.length < depth then s.q else []
    host := s.portIn.offering w :: s.host.tail }

end Sys2Proof.Machine
end

