-- ==== Sys2Proof/Machine/Step.lean ====
section
/-! DEFINITION. One step of the machine: one step at the ports of a unit that is built with the default
parameters and may hold `QDEPTH` commands, which is any whole number of clock cycles (R5, R26, R60; logs 1, 8). -/

namespace Sys2Proof.Machine

/-- One step. -/
def step (s : State) : Host.Outcome State Fault Refusal := stepBy exec Config.qdepth s

/-- `s` with the instruction word of `nbits` bits offered on the command port, where the next step takes it
(log 12). -/
def State.withFetchWord (s : State) (nbits w : Nat) : State := s.offerAt Config.qdepth (tableWord nbits w)

end Sys2Proof.Machine
end

