-- ==== Sys2Proof/Machine/Script.lean ====
section
/-! DEFINITION. Command scripts (R67, R68): the operand forms and what each means, the command of a line, the
responses to a script whose host waits for each response, and the reading of a line's text. -/

namespace Sys2Proof.Machine

open Sys2Proof.Config

/-! ### Operand forms (R67) -/

/-- The binary32 word nearest to `±digits · 10^exp10` under roundTiesToEven; `-0.0` means `0x80000000`. -/
def decimalWord (neg : Bool) (digits : Nat) (exp10 : Int) : Word :=
  if 0 ≤ exp10 then round32 tiesToEven neg (digits * 10 ^ exp10.toNat * 2 ^ 149) 1
  else round32 tiesToEven neg (digits * 2 ^ 149) (10 ^ (-exp10).toNat)

/-- The word an operand stands for; `results` are the results of the earlier labelled lines, newest first. -/
def operandWord (results : List (String × Word)) : Operand → Option Word
  | .word w => some w
  | .decimal neg digits exp10 => some (decimalWord neg digits exp10)
  | .inf => some PINF
  | .negInf => some NINF
  | .nan => some CNAN
  | .result name => results.lookup name

/-! ### Lines -/

/-- The operation code of a name of R64; the two pseudo-instructions of R68 expand to `PASS`. -/
def scriptCodes : List (String × OpCode) :=
  [("PASS", 0x00#8), ("GETSIGN", 0x01#8), ("GETEXP", 0x02#8), ("GETEXPV", 0x03#8), ("GETMANT", 0x04#8),
   ("SETSIGN", 0x05#8), ("SETEXP", 0x06#8), ("SETMANT", 0x07#8), ("NORM12", 0x08#8)] ++
  [("ABS", 0x10#8), ("COPYSIGN", 0x11#8), ("FLOOR", 0x12#8), ("CEIL", 0x13#8), ("TRUNC", 0x14#8),
   ("ROUND", 0x15#8), ("FRACT", 0x16#8)] ++
  [("INVSQRT", 0x20#8), ("SQRT", 0x21#8), ("INV", 0x22#8), ("COS", 0x30#8), ("SIN", 0x31#8), ("TAN", 0x32#8)] ++
  [("ATAN", 0x40#8), ("ATANNORM", 0x41#8), ("ATAN2", 0x42#8), ("ATAN2NORM", 0x43#8)] ++
  [("LN", 0x50#8), ("EXP", 0x51#8), ("LOG2", 0x52#8), ("LOG10", 0x53#8), ("LOG", 0x54#8), ("POWF", 0x55#8)] ++
  [("TOBITS", 0x00#8), ("FROMBITS", 0x00#8)]

/-- The second operand word of a line: a format-U line is encoded with `b = 0x00000000` (R67). -/
def secondWord (results : List (String × Word)) : Option Operand → Option Word
  | none => some ZERO
  | some b => operandWord results b

/-- The command a well-formed line presents: the code of its name with its operand words (R67). -/
def lineCommand (results : List (String × Word)) (l : ScriptLine) : Option Command :=
  if l.wellFormed then
    match scriptCodes.lookup l.mnemonic, operandWord results l.a, secondWord results l.b with
    | some op, some a, some b => some ⟨op, a, b⟩
    | _, _, _ => none
  else none

/-- The results known after a line: its own, if it is labelled, before the earlier ones. -/
def extendResults (results : List (String × Word)) (label : Option String) (r : Word) : List (String × Word) :=
  match label with
  | some name => (name, r) :: results
  | none => results

/-- The responses to a script's lines, issued in order, each after the response to the one before (R67); none
where a line is not well formed or names a result that no earlier line gives. -/
def scriptResponses (p : Params) (results : List (String × Word)) : List ScriptLine → Option (List Response)
  | [] => some []
  | l :: rest =>
    match lineCommand results l with
    | none => none
    | some c =>
      match scriptResponses p (extendResults results l.label (respond p c).r) rest with
      | none => none
      | some xs => some (respond p c :: xs)

/-! ### A host that issues commands one at a time -/

/-- The ports of a step in which the host offers `c` and takes no response. -/
def PortIn.offer {opW : Nat} (c : Command opW) : PortIn opW :=
  { (PortIn.idle : PortIn opW) with cmdValid := true, cmdOp := c.op, cmdA := c.a, cmdB := c.b }

/-- The ports of a step in which the host takes a response and offers nothing. -/
def PortIn.take {opW : Nat} : PortIn opW := { (PortIn.idle : PortIn opW) with rspReady := true }

/-- The ports of a host that issues each command and waits for its response before the next. -/
def oneAtATime {opW : Nat} : List (Command opW) → List (PortIn opW)
  | [] => []
  | c :: cs => PortIn.offer c :: PortIn.take :: oneAtATime cs

/-! ### The text of a line

`[%name =] MNEMONIC operand_a [, operand_b]`, where text after `;` is a comment (R67; log 16). -/

/-- The digits of R67's literals, in the order of their values; the decimal ones stand first. -/
def digits : List Char := "0123456789abcdef".toList

/-- The value of a digit in base 10 or 16: its place among the digits of that base, in either case (log 16). -/
def digitValue (base : Nat) (c : Char) : Option Nat := (digits.take base).idxOf? c.toLower

/-- The number that digits stand for, the most significant first, if each is a digit of the base. -/
def readDigits (base : Nat) (cs : List Char) : Option Nat :=
  (cs.mapM (digitValue base)).map fun ds => Nat.ofDigits base ds.reverse

/-- A decimal digit string of at least one digit. -/
def readNat (cs : List Char) : Option Nat := if cs.isEmpty then none else readDigits 10 cs

/-- An exponent, with or without a sign (the model's choice, log 16). -/
def readExponent : List Char → Option Int
  | '-' :: cs => (readNat cs).map fun n => -(n : Int)
  | '+' :: cs => (readNat cs).map fun n => (n : Int)
  | cs => (readNat cs).map fun n => (n : Int)

/-- The characters before the first one that `p` accepts, and what follows it, if there is one. -/
def splitAtFirst (p : Char → Bool) : List Char → List Char × Option (List Char)
  | [] => ([], none)
  | c :: cs => if p c then ([], some cs) else
      let r := splitAtFirst p cs
      (c :: r.1, r.2)

/-- An unsigned decimal literal: digits with a point or an exponent or both (R67), as `digits · 10^exp10`. That digits
may be missing on one side of the point, but not on both, and that the exponent's letter has either case, is a
DESIGN CHOICE (log 16). -/
def readDecimal (neg : Bool) (cs : List Char) : Option Operand :=
  let (mantissa, exponent) := splitAtFirst (fun c => c == 'e' || c == 'E') cs
  let (whole, fraction) := splitAtFirst (fun c => c == '.') mantissa
  match fraction, exponent with
  | none, none => none
  | some f, none =>
    match readNat (whole ++ f) with
    | some n => some (.decimal neg n (-(f.length : Int)))
    | none => none
  | f?, some e =>
    match readNat (whole ++ f?.getD []), readExponent e with
    | some n, some x => some (.decimal neg n (x - ((f?.getD []).length : Int)))
    | _, _ => none

/-- A word literal after its `0x` (R67): one to eight hexadecimal digits, a DESIGN CHOICE where there are fewer than
eight (log 16). -/
def readWord (cs : List Char) : Option Operand :=
  if cs.isEmpty || decide (8 < cs.length) then none
  else (readDigits 16 cs).map fun n => .word (BitVec.ofNat 32 n)

/-- An operand of a line (R67). The name of a result is any nonempty text that stands in one word, a DESIGN CHOICE
(log 16). -/
def readOperand (cs : List Char) : Option Operand :=
  match cs with
  | '0' :: 'x' :: hex => readWord hex
  | '%' :: name => if name.isEmpty then none else some (.result (String.ofList name))
  | '-' :: rest => if rest = ['i', 'n', 'f'] then some .negInf else readDecimal true rest
  | _ =>
    if cs = ['i', 'n', 'f'] then some .inf
    else if cs = ['n', 'a', 'n'] then some .nan
    else readDecimal false cs

/-- The words of a line: a space ends a word, `,` and `=` are words of their own, and `;` ends the line (R67). That
every other character is part of a word is a DESIGN CHOICE (log 16). `word` is the word being read, backwards. -/
def lineWords : List Char → List Char → List (List Char)
  | word, [] => if word.isEmpty then [] else [word.reverse]
  | word, c :: cs =>
    let done := if word.isEmpty then [] else [word.reverse]
    if c = ';' then done
    else if c = ' ' then done ++ lineWords [] cs
    else if c = ',' ∨ c = '=' then done ++ [c] :: lineWords [] cs
    else lineWords (c :: word) cs

/-- `MNEMONIC operand_a [, operand_b]` under a label, if there is one. -/
def readBody (label : Option String) (words : List (List Char)) : Option ScriptLine :=
  match words with
  | [name, a] => (readOperand a).map fun x => ⟨label, String.ofList name, x, none⟩
  | [name, a, [','], b] =>
    match readOperand a, readOperand b with
    | some x, some y => some ⟨label, String.ofList name, x, some y⟩
    | _, _ => none
  | _ => none

/-- The line a text stands for, if it is one (R67). A label is any nonempty text after `%` without a space, `,`, `=`
or `;`, a DESIGN CHOICE (log 16). -/
def readLine (text : String) : Option ScriptLine :=
  match lineWords [] text.toList with
  | ('%' :: name) :: ['='] :: body => if name.isEmpty then none else readBody (some (String.ofList name)) body
  | body => readBody none body

end Sys2Proof.Machine
end

