-- ==== Sys2Proof/Safety.lean ====
section
/-! DEFINITION. What counts as a safe state and a safe run, and the words in which claims about results are
written. -/

namespace Sys2Proof.Safety

open Sys2Proof.Machine Sys2Proof.Config

/-! ### States and runs -/

/-- A queue of a unit that may hold `depth` commands: at most `depth` responses, and a response with the
flag `ill` carries the canonical NaN (R26, R65). -/
abbrev QueueOk (depth : Nat) (s : State) : Prop :=
  s.q.length ≤ depth ∧ ∀ x ∈ s.q, x.ill = true → x.r = CNAN

/-- The end of a run: the host has no further command to offer, whatever else it still drives, and `Q = []`, so
every accepted command has been answered or dropped by a reset (R30). -/
abbrev Finished (s : State) : Prop := (∀ i ∈ s.host, i.cmdValid = false) ∧ s.q = []

/-- The host asserts no reset in its next `k` steps. -/
abbrev NoReset (k : Nat) (s : State) : Prop := ∀ i ∈ s.host.take k, i.rst = false

/-! ### Commands -/

/-- The operation codes of format B, whose operations use both operands (R61, R64). -/
def usesB (op : OpCode) : Bool := decide (op ∈ [0x05#8, 0x06#8, 0x07#8, 0x11#8, 0x42#8, 0x43#8, 0x54#8, 0x55#8])

/-! ### Results -/

/-- The instruction runs in state `s` and answers `r` with `ill = 0`: exactly one response is added at the
end of `Q`, and nothing else changes (R8, R26, R62). -/
def AnswersWith (i : Instr) (s : State) (r : Word) : Prop :=
  ∃ t, exec i s = .next t ∧ t.q = s.q ++ [⟨r, false⟩] ∧ t.host = s.host ∧ t.observed = s.observed ∧
    t.tick = s.tick

/-- A word that is a NaN or an infinity. -/
abbrev NonFinite (w : Word) : Prop := isFinite w = false

/-- A word below zero: the sign bit is 1 and the word is neither a zero nor a NaN. `-Inf` is one. -/
abbrev Negative (w : Word) : Prop := signBit w = true ∧ isZero w = false ∧ isNaN w = false

end Sys2Proof.Safety
end

