-- ==== Sys2Proof/Certificates/Slice0/Obligations.lean ====
section
/-! DEFINITION. The statements for the provers, from the numbered rules of the spec. Values and magnitudes of
words are whole numbers of units of `2^-149` (log 11). -/

open Sys2Proof Sys2Proof.Machine Sys2Proof.Config Sys2Proof.Safety

/-- Decoding an encoded instruction gives it back (R61, R63, R64). For every instruction, with every operand
word, the decoder reads from the encoder's 72-bit word exactly that instruction. No bit of the code or of an
operand is dropped or moved. The same holds of the command words with codes of any width that holds R64's
codes, the largest of which, 0x55, takes 7 bits; that the layout of R61 and the codes of R64 serve other
widths is the model's reading (log 22). -/
def Obligations.DecodingAnEncodedInstructionGivesItBack : Prop :=
  (∀ i : Instr, decode (encode i) = .ok i) ∧
  ∀ opW : Nat, 7 ≤ opW → ∀ i : Instr, decodeAt (encodeAt opW i) = .ok i

/-- A decoded instruction keeps the code and every operand bit its format uses (R61, R63, R64, R67). If a 72-bit
word decodes to an instruction, the command of that instruction has the word's bits 71:64 as its code, bits
63:32 as its first operand, and as its second operand bits 31:0 for a format-B code and zero for a format-U
code. -/
def Obligations.DecodedInstructionKeepsEveryOperandBit : Prop :=
  ∀ (w : CommandWord) (i : Instr), decode w = .ok i →
    i.command = ⟨w.extractLsb' 64 8, w.extractLsb' 32 32,
      if usesB (w.extractLsb' 64 8) then w.extractLsb' 0 32 else 0#32⟩

/-- Exactly the codes R65 lists are rejected, by name (R64, R65). A command word decodes to an instruction
exactly when its operation code is outside the ranges R65 lists as illegal; otherwise the decoder rejects it
and names that code. The rejection's name is the model's; that such a command is answered is another
statement. -/
def Obligations.ExactlyTheUnlistedCodesAreRejected : Prop :=
  ∀ w : CommandWord,
    ((∃ i, decode w = .ok i) ↔ OpCode.legal (w.extractLsb' 64 8) = true) ∧
    (OpCode.legal (w.extractLsb' 64 8) = false → decode w = .error (.illegalOpCode (w.extractLsb' 64 8)))

/-- The response to a format-U command does not depend on its second operand (R61, R65). For every operation
code that is not of format B, two commands with that code and the same first operand have the same response,
whatever their second operands and the parameters are. -/
def Obligations.OneOperandOperationsIgnoreTheSecondOperand : Prop :=
  ∀ (p : Params) (op : OpCode) (a b b' : Word), usesB op = false →
    respond p ⟨op, a, b⟩ = respond p ⟨op, a, b'⟩

/-- Words written out in the spec decode to the instructions they stand for (30_encoding.md R61, R64, R67,
95_test_vectors.md part 2). One word of each family, as the spec writes it, decodes to its instruction; the
first unused code of family 0 and the all-ones word are rejected. -/
def Obligations.WordsOfTheSpecDecodeAsWritten : Prop :=
  decode 0x06_3FC00000_00000081#72 = .ok (.setexp 0x3FC00000#32 0x00000081#32) ∧
  decode 0x11_40400000_80000000#72 = .ok (.copysign 0x40400000#32 0x80000000#32) ∧
  decode 0x22_40800000_00000000#72 = .ok (.inv 0x40800000#32) ∧
  decode 0x31_3F800000_00000000#72 = .ok (.sin 0x3F800000#32) ∧
  decode 0x31_3F800000_DEADBEEF#72 = .ok (.sin 0x3F800000#32) ∧
  decode 0x42_40400000_40800000#72 = .ok (.atan2 0x40400000#32 0x40800000#32) ∧
  decode 0x55_40000000_41200000#72 = .ok (.powf 0x40000000#32 0x41200000#32) ∧
  decode 0x09_00000000_00000000#72 = .error (.illegalOpCode 0x09#8) ∧
  decode 0xFF_FFFFFFFF_FFFFFFFF#72 = .error (.illegalOpCode 0xFF#8)

/-- round32 rounds every fraction to the nearest word, ties to even, with gradual underflow (R84). With the
default rounding (D6), for a real of sign s and magnitude N/D units of 2^-149 (every real the rules round is
such a fraction, log 11): the result has sign s; it is the infinity of sign s exactly from 2^128 - 2^103 on
(2^277 - 2^252 units); below that it is a finite word, no finite word (normal, subnormal or zero) is nearer
to the real, and when a word of another magnitude is just as near, the last mantissa bit of the result is 0. -/
def Obligations.RoundingIsToNearestTiesToEven : Prop :=
  ∀ (s : Bool) (N D : Nat), 0 < D →
    signBit (round32 params.rounding s N D) = s ∧
    ((2 ^ 277 - 2 ^ 252) * D ≤ N → round32 params.rounding s N D = infOf s) ∧
    (N < (2 ^ 277 - 2 ^ 252) * D →
      isFinite (round32 params.rounding s N D) = true ∧
      ∀ w, isFinite w = true →
        |(magnitude (round32 params.rounding s N D) * D : ℤ) - N| ≤ |(magnitude w * D : ℤ) - N| ∧
        (|(magnitude (round32 params.rounding s N D) * D : ℤ) - N| = |(magnitude w * D : ℤ) - N| →
          magnitude w ≠ magnitude (round32 params.rounding s N D) → (round32 params.rounding s N D).getLsbD 0 = false))

/-- A NaN operand or an invalid operation gives the one canonical NaN (R83, R85, R87, R88). Each of fadd, fsub,
fmul, fdiv returns 0x7FC00000 when an operand is a NaN; so do Inf + (-Inf) in either order, a zero times an
infinity in either order, a zero over a zero, and an infinity over an infinity. -/
def Obligations.InvalidOperationsGiveTheCanonicalNaN : Prop :=
  ∀ a b : Word,
    (isNaN a = true ∨ isNaN b = true →
      fadd params a b = 0x7FC00000#32 ∧ fsub params a b = 0x7FC00000#32 ∧ fmul params a b = 0x7FC00000#32 ∧
      fdiv params a b = 0x7FC00000#32) ∧
    (isInf a = true → isInf b = true → signBit a ≠ signBit b → fadd params a b = 0x7FC00000#32) ∧
    (isZero a = true → isInf b = true → fmul params a b = 0x7FC00000#32 ∧ fmul params b a = 0x7FC00000#32) ∧
    (isZero a = true → isZero b = true → fdiv params a b = 0x7FC00000#32) ∧
    (isInf a = true → isInf b = true → fdiv params a b = 0x7FC00000#32)

/-- fsub adds the negated word; a finite word minus itself is +0 (R86). For every choice of the parameters
fsub(a, b) is fadd(a, fneg(b)), and x - x is 0x00000000 for every finite x. With the default CNAN a NaN
second operand gives 0x7FC00000, and so does an infinity minus itself. -/
def Obligations.SubtractionIsAdditionOfTheNegatedWord : Prop :=
  (∀ (p : Params) (a b : Word), fsub p a b = fadd p a (fneg b)) ∧
  (∀ (p : Params) (x : Word), isFinite x = true → fsub p x x = 0x00000000#32) ∧
  (∀ a b : Word, isNaN b = true → fsub params a b = 0x7FC00000#32) ∧
  (∀ x : Word, isInf x = true → fsub params x x = 0x7FC00000#32)

/-- The comparisons order all words that are not NaNs, with equal zeros and infinities at the ends (R89). Every
comparison with a NaN is false. Of two words that are not NaNs exactly one of less, equal and greater holds,
and fle is less or equal. On finite words the order is that of their values, so +0 and -0 are equal. -Inf is
below every finite word and below +Inf, and +Inf is above every finite word. -/
def Obligations.ComparisonsOrderTheWords : Prop :=
  ∀ a b : Word,
    (isNaN a = true ∨ isNaN b = true → flt a b = false ∧ fle a b = false ∧ feq a b = false) ∧
    (isNaN a = false → isNaN b = false →
      (flt a b = true ∨ feq a b = true ∨ flt b a = true) ∧
      ¬(flt a b = true ∧ feq a b = true) ∧ ¬(flt a b = true ∧ flt b a = true) ∧
      ¬(feq a b = true ∧ flt b a = true) ∧
      (fle a b = true ↔ flt a b = true ∨ feq a b = true)) ∧
    (isFinite a = true → isFinite b = true →
      (flt a b = true ↔ value a < value b) ∧ (feq a b = true ↔ value a = value b)) ∧
    feq 0x80000000#32 0x00000000#32 = true ∧
    (isFinite a = true → flt 0xFF800000#32 a = true ∧ flt a 0x7F800000#32 = true) ∧
    flt 0xFF800000#32 0x7F800000#32 = true

/-- Integers of magnitude at most 255 convert to words exactly and back (R91, R99). For every integer n with |n|
<= 255, i2f(n) is a finite word whose integer value is n, and i2f(0) is 0x00000000. -/
def Obligations.SmallIntegersConvertExactly : Prop :=
  i2f params 0 = 0x00000000#32 ∧
  ∀ n : Int, -255 ≤ n → n ≤ 255 → isFinite (i2f params n) = true ∧ value (i2f params n) = n * 2 ^ 149 ∧ toInt (i2f params n) = n

/-- PASS, GETSIGN, GETEXP, GETEXPV and GETMANT return the word or its fields (R110, R111, R112, R113, R114). For
every operand word in every state, each of the five instructions completes with one response and nothing
else changed: PASS returns the word; GETSIGN its bit 31 as an integer; GETEXP bits 30:23 as an integer;
GETEXPV that field minus 127 as a two's complement integer; GETMANT bits 22:0 as an integer. -/
def Obligations.FieldReadsReturnTheFields : Prop :=
  ∀ (a : Word) (s : State),
    AnswersWith (.pass a) s a ∧
    (∃ r, AnswersWith (.getsign a) s r ∧ r.toNat = a.toNat / 2 ^ 31) ∧
    (∃ r, AnswersWith (.getexp a) s r ∧ r.toNat = a.toNat / 2 ^ 23 % 2 ^ 8) ∧
    (∃ r, AnswersWith (.getexpv a) s r ∧ r.toInt = ((a.toNat / 2 ^ 23 % 2 ^ 8 : Nat) : Int) - 127) ∧
    (∃ r, AnswersWith (.getmant a) s r ∧ r.toNat = a.toNat % 2 ^ 23)

/-- SETSIGN, SETEXP, SETMANT and NORM12 replace one field and leave the others (R115, R116, R117, R118). For all
operand words in every state, each completes with one response and nothing else changed: SETSIGN puts b's
bit 0 in bit 31; SETEXP puts b's bits 7:0 in bits 30:23; SETMANT puts b's bits 22:0 in bits 22:0; NORM12
puts 127 in bits 30:23. Every other bit is a's, and no other bit of b matters. -/
def Obligations.FieldWritesChangeOneField : Prop :=
  ∀ (a b : Word) (s : State),
    (∃ r, AnswersWith (.setsign a b) s r ∧ r.toNat = b.toNat % 2 * 2 ^ 31 + a.toNat % 2 ^ 31) ∧
    (∃ r, AnswersWith (.setexp a b) s r ∧
      r.toNat = a.toNat / 2 ^ 31 * 2 ^ 31 + b.toNat % 2 ^ 8 * 2 ^ 23 + a.toNat % 2 ^ 23) ∧
    (∃ r, AnswersWith (.setmant a b) s r ∧ r.toNat = a.toNat / 2 ^ 23 * 2 ^ 23 + b.toNat % 2 ^ 23) ∧
    (∃ r, AnswersWith (.norm12 a) s r ∧
      r.toNat = a.toNat / 2 ^ 31 * 2 ^ 31 + 127 * 2 ^ 23 + a.toNat % 2 ^ 23)

/-- A word is rebuilt from its fields, and a written field reads back without touching the others (R121). For
all words: setting the three fields read from w into 0 gives w; each setter's field reads back as written
and the other two read as before; GETEXPV is GETEXP minus 127; NORM12 is SETEXP with 127; PASS twice is the
identity. -/
def Obligations.FieldsRoundTripAndAreIndependent : Prop :=
  ∀ w v : Word,
    opSetSign (opSetExp (opSetMant 0#32 (opGetMant w)) (opGetExp w)) (opGetSign w) = w ∧
    (opGetExp (opSetExp w v) = (v.extractLsb' 0 8).setWidth 32 ∧ opGetMant (opSetExp w v) = opGetMant w ∧
      opGetSign (opSetExp w v) = opGetSign w) ∧
    (opGetMant (opSetMant w v) = (v.extractLsb' 0 23).setWidth 32 ∧ opGetExp (opSetMant w v) = opGetExp w ∧
      opGetSign (opSetMant w v) = opGetSign w) ∧
    (opGetSign (opSetSign w v) = (v.extractLsb' 0 1).setWidth 32 ∧ opGetExp (opSetSign w v) = opGetExp w ∧
      opGetMant (opSetSign w v) = opGetMant w) ∧
    opGetExpV w = opGetExp w - 127#32 ∧
    opNorm12 w = opSetExp w 127#32 ∧
    opPass (opPass w) = w

/-- ABS clears bit 31; COPYSIGN takes it from the second operand (R130, R131). For all operand words in every
state, ABS completes with a's bits 30:0 and sign bit 0; COPYSIGN completes with a's bits 30:0 and b's bit
31. Nothing else changes. -/
def Obligations.AbsAndCopysignTouchOnlyTheSignBit : Prop :=
  ∀ (a b : Word) (s : State),
    (∃ r, AnswersWith (.abs a) s r ∧ r.toNat = a.toNat % 2 ^ 31) ∧
    (∃ r, AnswersWith (.copysign a b) s r ∧ r.toNat = b.toNat / 2 ^ 31 * 2 ^ 31 + a.toNat % 2 ^ 31)

/-- TRUNC gives the integer part toward zero, with the operand's sign bit (R132). For every finite operand TRUNC
completes with a finite word of the operand's sign bit whose value is the operand's value divided by one,
rounded toward zero (values in units of 2^-149). An infinity or a NaN is returned unchanged. -/
def Obligations.TruncIsTheIntegerTowardZero : Prop :=
  ∀ (a : Word) (s : State),
    (isFinite a = true →
      ∃ r, AnswersWith (.trunc a) s r ∧ isFinite r = true ∧ signBit r = signBit a ∧
        value r = (value a).tdiv (2 ^ 149) * 2 ^ 149) ∧
    (NonFinite a → AnswersWith (.trunc a) s a)

/-- FLOOR gives the largest integer not above the operand (R133, R64). For every finite operand FLOOR completes
with a finite word whose value is the floor of the operand's value (values in units of 2^-149), and a zero
result has the operand's sign bit. An infinity or a NaN is returned unchanged. -/
def Obligations.FloorIsTheLargestIntegerNotAbove : Prop :=
  ∀ (a : Word) (s : State),
    (isFinite a = true →
      ∃ r, AnswersWith (.floor a) s r ∧ isFinite r = true ∧
        value r = (value a).fdiv (2 ^ 149) * 2 ^ 149 ∧ (value r = 0 → signBit r = signBit a)) ∧
    (NonFinite a → AnswersWith (.floor a) s a)

/-- CEIL gives the smallest integer not below the operand (R134, R64). For every finite operand CEIL completes
with a finite word whose value is the ceiling of the operand's value (values in units of 2^-149), and a zero
result has the operand's sign bit. An infinity or a NaN is returned unchanged. -/
def Obligations.CeilIsTheSmallestIntegerNotBelow : Prop :=
  ∀ (a : Word) (s : State),
    (isFinite a = true →
      ∃ r, AnswersWith (.ceil a) s r ∧ isFinite r = true ∧
        value r = -((-value a).fdiv (2 ^ 149)) * 2 ^ 149 ∧ (value r = 0 → signBit r = signBit a)) ∧
    (NonFinite a → AnswersWith (.ceil a) s a)

/-- ROUND gives the nearest integer, halves away from zero (R136, R64). For every finite operand ROUND completes
with a finite word of the operand's sign bit whose magnitude is the operand's magnitude plus one half,
rounded down to an integer (magnitudes in units of 2^-149). An infinity or a NaN is returned unchanged. -/
def Obligations.RoundIsTheNearestIntegerHalfAwayFromZero : Prop :=
  ∀ (a : Word) (s : State),
    (isFinite a = true →
      ∃ r, AnswersWith (.round a) s r ∧ isFinite r = true ∧ signBit r = signBit a ∧
        magnitude r = (2 * magnitude a + 2 ^ 149) / 2 ^ 150 * 2 ^ 149) ∧
    (NonFinite a → AnswersWith (.round a) s a)

/-- FRACT gives the exact fractional part, +0 for an integer (R135). For every finite operand FRACT completes
with a finite word whose value is the operand's value minus its integer part toward zero, exactly, and a
zero result is +0. An infinity or a NaN gives the canonical NaN. -/
def Obligations.FractIsTheExactFractionalPart : Prop :=
  ∀ (a : Word) (s : State),
    (isFinite a = true →
      ∃ r, AnswersWith (.fract a) s r ∧ isFinite r = true ∧
        value r = value a - (value a).tdiv (2 ^ 149) * 2 ^ 149 ∧ (value r = 0 → r = 0x00000000#32)) ∧
    (NonFinite a → AnswersWith (.fract a) s 0x7FC00000#32)

/-- TRUNC(x) + FRACT(x) is x exactly, for every finite x (R135). For every finite word x, fadd(TRUNC(x),
FRACT(x)) has exactly the value of x, and is the word x itself when x is not a zero. -/
def Obligations.IntegerAndFractionalPartsAddUpExactly : Prop :=
  ∀ x : Word, isFinite x = true →
    value (fadd params (opTrunc x) (opFract params x)) = value x ∧
    (isZero x = false → fadd params (opTrunc x) (opFract params x) = x)

/-- The laws of the rounding family hold for every finite word (R137). For every finite x: FLOOR(x) <= x <=
CEIL(x); the four rounding operations return x's value when it is an integer; |FRACT(x)| < 1; TRUNC, FLOOR,
CEIL and ROUND are idempotent; ABS(COPYSIGN(x, s)) = ABS(x) and GETSIGN(COPYSIGN(x, s)) = GETSIGN(s). No
operation of the family makes a NaN from a word that is not one, except FRACT of an infinity, which does. -/
def Obligations.RoundingOperationsKeepTheirLaws : Prop :=
  (∀ x : Word, isFinite x = true →
    (fle (opFloor params x) x = true ∧ fle x (opCeil params x) = true) ∧
    ((2 ^ 149 : Int) ∣ value x →
      value (opFloor params x) = value x ∧ value (opCeil params x) = value x ∧ value (opTrunc x) = value x ∧
      value (opRound params x) = value x) ∧
    flt (fabs (opFract params x)) 0x3F800000#32 = true ∧
    (opTrunc (opTrunc x) = opTrunc x ∧ opFloor params (opFloor params x) = opFloor params x ∧ opCeil params (opCeil params x) = opCeil params x ∧
      opRound params (opRound params x) = opRound params x) ∧
    ∀ s : Word, opAbs (opCopySign x s) = opAbs x ∧ opGetSign (opCopySign x s) = opGetSign s) ∧
  ∀ x : Word, isNaN x = false →
    isNaN (opAbs x) = false ∧ (∀ s : Word, isNaN (opCopySign x s) = false) ∧ isNaN (opFloor params x) = false ∧
    isNaN (opCeil params x) = false ∧ isNaN (opTrunc x) = false ∧ isNaN (opRound params x) = false ∧
    (isNaN (opFract params x) = true ↔ isInf x = true)

/-- INVSQRT, SQRT and INV complete with the results of their datapath (R150, R151, R152). For every operand word
in every state: with y0 = 0x5F375A86 - (a >> 1) modulo 2^32 and y = y0*(1.5 - ((0.5*a)*y0)*y0), each
primitive rounded once, INVSQRT completes with y, SQRT with a*y and INV with y*y. The magic word is the
spec's decision D10. -/
def Obligations.InverseSquareRootFollowsItsDatapath : Prop :=
  ∀ (a : Word) (s : State),
    let y0 : Word := 0x5F375A86#32 - (a >>> 1)
    let y := fmul params y0 (fsub params 0x3FC00000#32 (fmul params (fmul params (fmul params 0x3F000000#32 a) y0) y0))
    AnswersWith (.invsqrt a) s y ∧ AnswersWith (.sqrt a) s (fmul params a y) ∧ AnswersWith (.inv a) s (fmul params y y)

/-- INVSQRT, SQRT and INV give the pinned words at zeros, the smallest subnormal, -1.0 and the negatives around
it, infinities and NaNs (R150, R151, R152, R153). In every state: the words R150 to R152 tabulate for +0,
-0, 0x00000001 and +Inf are the results. -1.0, -Inf and every other word from 0xBF6EB50C to 0xFF800000 give
-Inf, +Inf and +Inf. The negative words from 0xBE6EB50E to 0xBF6EB50B, where the wrapped estimate is a NaN,
give the canonical NaN in all three, and so does every NaN operand. The tabulated values are the spec's
decision D11 (log 9); the ends of the two ranges are computed from its datapath (log 20). -/
def Obligations.InverseSquareRootOutsideItsDomain : Prop :=
  ∀ s : State,
    (AnswersWith (.invsqrt 0x00000000#32) s 0x5F8983E4#32 ∧ AnswersWith (.sqrt 0x00000000#32) s 0x00000000#32 ∧
      AnswersWith (.inv 0x00000000#32) s 0x7F800000#32) ∧
    (AnswersWith (.invsqrt 0x80000000#32) s 0x1F8983E4#32 ∧ AnswersWith (.sqrt 0x80000000#32) s 0x80000000#32 ∧
      AnswersWith (.inv 0x80000000#32) s 0x0024EF37#32) ∧
    (AnswersWith (.invsqrt 0x00000001#32) s 0x5F8983E4#32 ∧ AnswersWith (.sqrt 0x00000001#32) s 0x150983E4#32 ∧
      AnswersWith (.inv 0x00000001#32) s 0x7F800000#32) ∧
    (AnswersWith (.invsqrt 0x7F800000#32) s 0xFF800000#32 ∧ AnswersWith (.sqrt 0x7F800000#32) s 0xFF800000#32 ∧
      AnswersWith (.inv 0x7F800000#32) s 0x7F800000#32) ∧
    (∀ a : Word, 0xBF6EB50C ≤ a.toNat → a.toNat ≤ 0xFF800000 →
      AnswersWith (.invsqrt a) s 0xFF800000#32 ∧ AnswersWith (.sqrt a) s 0x7F800000#32 ∧
      AnswersWith (.inv a) s 0x7F800000#32) ∧
    (∀ a : Word, 0xBE6EB50E ≤ a.toNat → a.toNat ≤ 0xBF6EB50B →
      AnswersWith (.invsqrt a) s 0x7FC00000#32 ∧ AnswersWith (.sqrt a) s 0x7FC00000#32 ∧
      AnswersWith (.inv a) s 0x7FC00000#32) ∧
    ∀ a : Word, isNaN a = true →
      AnswersWith (.invsqrt a) s 0x7FC00000#32 ∧ AnswersWith (.sqrt a) s 0x7FC00000#32 ∧
      AnswersWith (.inv a) s 0x7FC00000#32

/-- INV never returns a word with the sign bit set (R152). For every operand word and every choice of the
parameters whose CNAN has sign bit 0, as the default has, the result of INV has sign bit 0, because it is a
square. -/
def Obligations.InverseIsNeverNegative : Prop :=
  ∀ (p : Params) (a : Word), signBit p.cnan = false → signBit (opInv p a) = false

/-- The magic subtraction wraps exactly from 0xBE6EB50E on (R95). a >> 1 exceeds the magic word exactly when a
>= 0xBE6EB50E; the estimate is then the difference plus 2^32, and the plain difference otherwise. -/
def Obligations.MagicSubtractionWrapsFromOneWordOn : Prop :=
  ∀ a : Word,
    (0x5F375A86 < a.toNat / 2 ↔ 0xBE6EB50E ≤ a.toNat) ∧
    (a.toNat < 0xBE6EB50E → (invSqrtEstimate params a).toNat = 0x5F375A86 - a.toNat / 2) ∧
    (0xBE6EB50E ≤ a.toNat → (invSqrtEstimate params a).toNat = 0x5F375A86 + 2 ^ 32 - a.toNat / 2)

/-- COS, SIN and TAN complete with the results of their datapath (R160, R161, R162, R163). For every operand
word in every state COS completes with the reduction to turns followed by the double-parabola polynomial,
each primitive rounded once in the order written; SIN completes with the cosine of a - pi/2; TAN completes
with the quotient of the two, with no pole guard. The coefficients are the spec's decision D14. -/
def Obligations.CosineSineTangentFollowTheirDatapath : Prop :=
  ∀ (a : Word) (st : State),
    let cosine : Word → Word := fun x =>
      let t := fmul params x 0x3E22F983#32
      let w := fsub params t (fadd params 0x3E800000#32 (opFloor params (fadd params t 0x3E800000#32)))
      let s := fmul params w (fmul params 0x41800000#32 (fsub params (fabs w) 0x3F000000#32))
      fadd params s (fmul params (fmul params 0x3E666666#32 s) (fsub params (fabs s) 0x3F800000#32))
    AnswersWith (.cos a) st (cosine a) ∧
    AnswersWith (.sin a) st (cosine (fsub params a 0x3FC90FDB#32)) ∧
    AnswersWith (.tan a) st (fdiv params (cosine (fsub params a 0x3FC90FDB#32)) (cosine a))

/-- COS, SIN and TAN of an infinity or a NaN are the canonical NaN (R161, R162, R163). For every infinity and
every NaN operand, in every state, COS, SIN and TAN complete with 0x7FC00000. Nothing is special-cased: the
datapath gives it (decision D16, log 9). -/
def Obligations.TrigonometryOfNonFiniteWordsIsNaN : Prop :=
  ∀ (a : Word) (s : State), NonFinite a →
    AnswersWith (.cos a) s 0x7FC00000#32 ∧ AnswersWith (.sin a) s 0x7FC00000#32 ∧
    AnswersWith (.tan a) s 0x7FC00000#32

/-- From 2^23 * 2pi on, COS and SIN are +0 and TAN is NaN whatever the angle (R161, R162, R163). For every
finite operand of magnitude 2^23 * 2pi or more (its word without the sign bit is at least 0x4C490FDB, the
first one of that region), in every state, COS and SIN complete with +0 and TAN with the canonical NaN, so
the results carry no information (decision D16, log 9). -/
def Obligations.HugeAnglesCarryNoInformation : Prop :=
  ∀ (a : Word) (s : State), isFinite a = true → 0x4C490FDB ≤ (fabs a).toNat →
    AnswersWith (.cos a) s 0x00000000#32 ∧ AnswersWith (.sin a) s 0x00000000#32 ∧
    AnswersWith (.tan a) s 0x7FC00000#32

/-- R161's remark that COS always lies in [-1, 1] for finite operands (it does not) (44_trig.md R161, corner
cases). R161 remarks that the result always lies in [-1, 1] for finite a. Under R161's own pseudocode this
is false for exactly two words, 0xCBC90FDC and 0xCBC90FDD, far outside the declared domain, where the
reduction returns a word below -0.5 (log 17). Expected to be refuted. -/
def Obligations.CosineOfEveryFiniteWordIsInTheUnitInterval : Prop :=
  ∀ a : Word, isFinite a = true → fle (fabs (opCos params a)) 0x3F800000#32 = true

/-- ATANNORM, ATAN, ATAN2NORM and ATAN2 complete with the results of their datapath (R175, R176, R177, R178,
R179). For all operand words in every state the four instructions complete with the values their rules'
pseudocode gives, over the kernel RAT with B = 0x3F18A255: fold for |x| > 1 strictly, sign kept aside, ratio
of the smaller to the larger magnitude, quadrant from the sign bits, 4 replaced by +0, radians by one
multiplication. The coefficient is the spec's decision D17. -/
def Obligations.ArctangentsFollowTheirDatapath : Prop :=
  ∀ (a b : Word) (s : State),
    let rat : Word → Word := fun u =>
      let bu := fmul params 0x3F18A255#32 u
      let n := fadd params bu (fmul params u u)
      fdiv params n (fadd params (fadd params 0x3F800000#32 bu) n)
    let atanNorm : Word :=
      if isNaN a then 0x7FC00000#32
      else (a &&& 0x80000000#32) |||
        (if flt 0x3F800000#32 (fabs a) then fsub params 0x3F800000#32 (rat (fdiv params 0x3F800000#32 (fabs a)))
         else rat (fabs a))
    let q1 : Word :=
      if isZero b && isZero a then 0x00000000#32
      else if flt (fabs b) (fabs a) then fsub params 0x3F800000#32 (rat (fdiv params (fabs b) (fabs a)))
      else rat (fdiv params (fabs a) (fabs b))
    let th : Word :=
      if signBit b then (if signBit a then fadd params 0x40000000#32 q1 else fsub params 0x40000000#32 q1)
      else (if signBit a then fsub params 0x40800000#32 q1 else q1)
    let atan2Norm : Word :=
      if isNaN b || isNaN a then 0x7FC00000#32
      else if fle 0x40800000#32 th then 0x00000000#32 else th
    AnswersWith (.atannorm a) s atanNorm ∧
    AnswersWith (.atan a) s (fmul params 0x3FC90FDB#32 atanNorm) ∧
    AnswersWith (.atan2norm a b) s atan2Norm ∧
    AnswersWith (.atan2 a b) s
      (fmul params 0x3FC90FDB#32 (if flt 0x40000000#32 atan2Norm then fsub params atan2Norm 0x40800000#32 else atan2Norm))

/-- ATANNORM and ATAN are odd, bit for bit (R180). For every operand that is not a NaN, negating the operand's
sign bit negates the result's sign bit and changes no other bit, for ATANNORM and for ATAN. -/
def Obligations.ArctangentIsOddBitForBit : Prop :=
  ∀ a : Word, isNaN a = false →
    opAtanNorm params (fneg a) = fneg (opAtanNorm params a) ∧
    opAtan params (fneg a) = fneg (opAtan params a)

/-- ATANNORM lies in [-1, 1] and ATAN in [-pi/2, pi/2], with the operand's sign (R176, R177). For every operand
that is not a NaN, ATANNORM completes with a word of the operand's sign bit and magnitude at most 1, and
ATAN with a word of the operand's sign bit and magnitude at most 0x3FC90FDB. A NaN gives the canonical NaN
in both. -/
def Obligations.ArctangentStaysInItsRange : Prop :=
  ∀ (a : Word) (s : State),
    (isNaN a = false →
      ∃ r q, AnswersWith (.atannorm a) s r ∧ signBit r = signBit a ∧ fle (fabs r) 0x3F800000#32 = true ∧
        AnswersWith (.atan a) s q ∧ signBit q = signBit a ∧ fle (fabs q) 0x3FC90FDB#32 = true) ∧
    (isNaN a = true →
      AnswersWith (.atannorm a) s 0x7FC00000#32 ∧ AnswersWith (.atan a) s 0x7FC00000#32)

/-- ATAN2NORM lies in [0, 4) for every pair but NaNs and two infinities (R178). Unless an operand is a NaN or
both are infinities, ATAN2NORM completes with a word that is at least 0 and strictly below 4. -/
def Obligations.FourQuadrantAngleStaysInOneTurn : Prop :=
  ∀ (a b : Word) (s : State), isNaN a = false → isNaN b = false → ¬(isInf a = true ∧ isInf b = true) →
    ∃ r, AnswersWith (.atan2norm a b) s r ∧ fle 0x00000000#32 r = true ∧ flt r 0x40800000#32 = true

/-- ATAN2 lies in (-pi, pi] for every pair but NaNs and two infinities (R179). Unless an operand is a NaN or
both are infinities, ATAN2 completes with a word strictly above 0xC0490FDB (-pi) and at most 0x40490FDB
(pi). -/
def Obligations.FourQuadrantAngleInRadiansStaysInItsRange : Prop :=
  ∀ (a b : Word) (s : State), isNaN a = false → isNaN b = false → ¬(isInf a = true ∧ isInf b = true) →
    ∃ r, AnswersWith (.atan2 a b) s r ∧ flt 0xC0490FDB#32 r = true ∧ fle r 0x40490FDB#32 = true

/-- ATAN2NORM at zeros, infinities and NaNs gives the tabulated quarter-turns (R178). Two zeros: 0 for b = +0, 2
for b = -0. A finite nonzero a with a zero b: 1 or 3 by the sign of a. A zero a with a finite nonzero b: 0
or 2 by the sign of b. An infinite a with a finite b: 1 or 3 by the sign of a. A finite a with an infinite
b: 0 or 2 by the sign of b. Two infinities or a NaN in either operand: the canonical NaN. These pinned
values are the spec's decision D19 (log 9). -/
def Obligations.FourQuadrantAngleAtZerosAndInfinities : Prop :=
  ∀ (a b : Word) (s : State),
    (isZero a = true → isZero b = true →
      AnswersWith (.atan2norm a b) s (if signBit b then 0x40000000#32 else 0x00000000#32)) ∧
    (isFinite a = true → isZero a = false → isZero b = true →
      AnswersWith (.atan2norm a b) s (if signBit a then 0x40400000#32 else 0x3F800000#32)) ∧
    (isZero a = true → isFinite b = true → isZero b = false →
      AnswersWith (.atan2norm a b) s (if signBit b then 0x40000000#32 else 0x00000000#32)) ∧
    (isInf a = true → isFinite b = true →
      AnswersWith (.atan2norm a b) s (if signBit a then 0x40400000#32 else 0x3F800000#32)) ∧
    (isFinite a = true → isInf b = true →
      AnswersWith (.atan2norm a b) s (if signBit b then 0x40000000#32 else 0x00000000#32)) ∧
    (isInf a = true → isInf b = true → AnswersWith (.atan2norm a b) s 0x7FC00000#32) ∧
    (isNaN a = true ∨ isNaN b = true → AnswersWith (.atan2norm a b) s 0x7FC00000#32)

/-- LN: the four tests of its domain policy, and e*ln 2 + p(m) otherwise (R191, R192). In every state LN
completes: with the canonical NaN for a NaN; with -Inf for a zero of either sign; with the canonical NaN for
any negative word, -Inf and subnormals included; with +Inf for +Inf; and for every other word, positive
subnormals included, with e*ln 2 plus the degree-4 Horner polynomial of m, where e is the exponent field
minus 127 and m the word with that field set to 127. The coefficients are the spec's decision D21. -/
def Obligations.LogarithmTestsItsOperandThenAddsItsParts : Prop :=
  ∀ (a : Word) (s : State),
    (isNaN a = true → AnswersWith (.ln a) s 0x7FC00000#32) ∧
    (isZero a = true → AnswersWith (.ln a) s 0xFF800000#32) ∧
    (Negative a → AnswersWith (.ln a) s 0x7FC00000#32) ∧
    AnswersWith (.ln 0x7F800000#32) s 0x7F800000#32 ∧
    (isFinite a = true → isZero a = false → signBit a = false →
      ∃ m : Word, m.toNat = 127 * 2 ^ 23 + a.toNat % 2 ^ 23 ∧
        AnswersWith (.ln a) s
          (fadd params (fmul params (i2f params (((a.toNat / 2 ^ 23 % 2 ^ 8 : Nat) : Int) - 127)) 0x3F317218#32)
            (fadd params 0xBFDEF31A#32 (fmul params (fadd params 0x40348E95#32 (fmul params (fadd params 0xBFBC278B#32
              (fmul params (fadd params 0x3EE4F4B8#32 (fmul params 0xBD67B6D6#32 m)) m)) m)) m))))

/-- EXP: early exits, four series terms, and the exponent field set with saturation (R193). In every state EXP
completes: with the canonical NaN for a NaN; with +Inf or +0 when a/ln 2 rounds to +Inf or -Inf; otherwise
with the series s of four terms in rr, its exponent field moved by the integer k: +Inf from 255 on, +0 from
0 down, and else the word with that exponent field. -/
def Obligations.ExponentialFollowsItsDatapath : Prop :=
  ∀ (a : Word) (st : State),
    let t := fmul params a 0x3FB8AA3B#32
    let kf := opRound params t
    let rr := fmul params (fsub params t kf) 0x3F317218#32
    let pass : Int → Word → Word := fun i s => fadd params 0x3F800000#32 (fmul params (fdiv params rr (i2f params i)) s)
    let s := pass 1 (pass 2 (pass 3 (pass 4 0x3F800000#32)))
    let e2 : Int := ((s.toNat / 2 ^ 23 % 2 ^ 8 : Nat) : Int) + value kf / 2 ^ 149
    (isNaN a = true → AnswersWith (.exp a) st 0x7FC00000#32) ∧
    (isNaN a = false → t = 0x7F800000#32 → AnswersWith (.exp a) st 0x7F800000#32) ∧
    (isNaN a = false → t = 0xFF800000#32 → AnswersWith (.exp a) st 0x00000000#32) ∧
    (isNaN a = false → t ≠ 0x7F800000#32 → t ≠ 0xFF800000#32 →
      (255 ≤ e2 → AnswersWith (.exp a) st 0x7F800000#32) ∧
      (e2 ≤ 0 → AnswersWith (.exp a) st 0x00000000#32) ∧
      (0 < e2 → e2 < 255 → AnswersWith (.exp a) st (opSetExp s (BitVec.ofInt 32 e2))))

/-- EXP never returns a subnormal word (R193). For every operand word and every choice of the parameters whose
CNAN is a NaN, the number of series terms among them, the result of EXP is not a subnormal: underflow is
flushed to +0. -/
def Obligations.ExponentialIsNeverSubnormal : Prop :=
  ∀ (p : Params) (a : Word), isNaN p.cnan = true → isSub (opExp p a) = false

/-- LOG2, LOG10, LOG and POWF complete with their compositions of LN and EXP (R194, R195, R196, R197). For all
operand words in every state: LOG2 completes with LN(a) divided by the word ln 2, LOG10 with LN(a) divided
by the word ln 10, LOG with LN(a) divided by LN(b), POWF with EXP of b times LN(a), each step rounded once,
with no test of the operands added. -/
def Obligations.LogarithmsAndPowersAreComposed : Prop :=
  ∀ (a b : Word) (s : State),
    AnswersWith (.log2 a) s (fdiv params (opLn params a) 0x3F317218#32) ∧
    AnswersWith (.log10 a) s (fdiv params (opLn params a) 0x40135D8E#32) ∧
    AnswersWith (.log a b) s (fdiv params (opLn params a) (opLn params b)) ∧
    AnswersWith (.powf a b) s (opExp params (fmul params b (opLn params a)))

/-- A negative operand of a logarithm and a negative base of a power give the canonical NaN (R194, R195, R196,
R197). For every negative word a (-Inf included) and every word b, in every state: LOG2(a), LOG10(a), LOG(a,
b), LOG(b, a) and POWF(a, b) complete with 0x7FC00000, integer exponents included. These pinned values are
the spec's decisions D22 and D25 (log 9). -/
def Obligations.LogarithmsAndPowersOfNegativesAreNaN : Prop :=
  ∀ (a b : Word) (s : State), Negative a →
    AnswersWith (.log2 a) s 0x7FC00000#32 ∧ AnswersWith (.log10 a) s 0x7FC00000#32 ∧
    AnswersWith (.log a b) s 0x7FC00000#32 ∧ AnswersWith (.log b a) s 0x7FC00000#32 ∧
    AnswersWith (.powf a b) s 0x7FC00000#32

/-- POWF(x, 0) is exactly 1 for every positive finite x (R197). For every positive finite x, subnormals
included, and either zero as the exponent, in every state, POWF completes with 0x3F800000. (It holds because
LN of every such x is finite.) -/
def Obligations.ZeroPowerOfAPositiveWordIsOne : Prop :=
  ∀ (a b : Word) (s : State), isFinite a = true → isZero a = false → signBit a = false → isZero b = true →
    AnswersWith (.powf a b) s 0x3F800000#32

/-- EXP is exactly 1 for every operand of magnitude at most 2^-25 (R193). For every operand of magnitude at most
2^-25 (2^124 units of 2^-149), zeros and subnormals included, of either sign, in every state, EXP completes
with 0x3F800000. -/
def Obligations.ExponentialOfTinyWordsIsOne : Prop :=
  ∀ (a : Word) (s : State), magnitude a ≤ 2 ^ 124 → AnswersWith (.exp a) s 0x3F800000#32

/-- Every instruction completes in every state with one response and changes nothing else (R62, R63, R22). For
each of the 32 instructions, on every operand and in every state, exec answers a next state in which exactly
one response has been added at the end of Q, with the instruction's result word and ill = 0; the host's
inputs, the responses already observed and the step count are unchanged. There is no register, flag or
memory to change. -/
def Obligations.EveryInstructionAnswersOnce : Prop :=
  ∀ (i : Instr) (s : State), AnswersWith i s (result params i)

/-- The response to a command is a function of that command alone (R8). Accepting a command in any state adds
one response, respond(c), that depends on the operation code and the operand words only: not on the queue,
the earlier commands, the host or the time. -/
def Obligations.ResponseDependsOnTheCommandAlone : Prop :=
  ∀ (c : Command) (s : State), accept exec c s = .next (s.push (respond params c))

/-- ill is 0 for a defined code and 1 with the canonical NaN for an undefined one (R62, R63, R65). For every
command word: if its code is one of the 32, ill = 0 and r is the result of the instruction it decodes to;
for any other code r = 0x7FC00000 and ill = 1; and no operand value decides which. The 33-bit response word
is ill above r. -/
def Obligations.FlagReportsOnlyAnUndefinedCode : Prop :=
  ∀ c : Command,
    (OpCode.legal c.op = true →
      ∃ i, decodeCommand c = .ok i ∧ respond params c = ⟨result params i, false⟩ ∧ (respond params c).toWord = 0#1 ++ result params i) ∧
    (OpCode.legal c.op = false →
      respond params c = ⟨0x7FC00000#32, true⟩ ∧ (respond params c).toWord = 1#1 ++ 0x7FC00000#32)

/-- Every step of the machine answers a next state (R210, R211, R214). From every state, whatever the host
drives on the ports, one step answers a next state: nothing faults, traps or is refused. -/
def Obligations.NoStepFaultsOrRefuses : Prop :=
  ∀ s : State, ∃ t, step s = .next t

/-- A step in which a command is accepted runs exec of the decoded instruction (R26, R60, R63). When rst = 0,
cmd_valid = 1, the unit has room and the offered command decodes to i, step is exec of i at the state in
which the step's inputs are used up and, if rsp_ready = 1 and Q is not empty, the head of Q has been
delivered. In particular a word placed by withFetchWord that decodes to i is run by the very next step, from
every state. -/
def Obligations.StepRunsTheOfferedInstruction : Prop :=
  (∀ (s : State) (i : Instr), s.portIn.rst = false → s.portIn.cmdValid = true → s.q.length < qdepth →
    decodeCommand s.portIn.command = .ok i →
    ∃ u, step s = exec i u ∧ u.host = s.host.tail ∧ u.tick = s.tick + 1 ∧
      (s.portIn.rspReady = true → u.q = s.q.tail ∧ u.observed = s.observed ++ s.q.take 1) ∧
      (s.portIn.rspReady = false → u.q = s.q ∧ u.observed = s.observed)) ∧
  ∀ (s : State) (nbits w : Nat) (i : Instr), decodeTableWord nbits w = some i →
    ∃ u, step (s.withFetchWord nbits w) = exec i u ∧ u.host = s.host.tail

/-- A step that accepts an undefined code adds the answer (0x7FC00000, 1) and changes nothing else (R65, R211).
When rst = 0, cmd_valid = 1, the unit has room and the offered code is undefined, the step completes: after
the delivery of the step, if any, Q ends with the response r = 0x7FC00000, ill = 1, and the responses
observed and the coming inputs are those of a step without the command. -/
def Obligations.IllegalCommandIsAnsweredInTheQueue : Prop :=
  ∀ s : State, s.portIn.rst = false → s.portIn.cmdValid = true → s.q.length < qdepth →
    OpCode.legal s.portIn.cmdOp = false →
    ∃ t, step s = .next t ∧
      t.q = (if s.portIn.rspReady then s.q.tail else s.q) ++ [⟨0x7FC00000#32, true⟩] ∧
      t.observed = (if s.portIn.rspReady then s.observed ++ s.q.take 1 else s.observed) ∧
      t.host = s.host.tail ∧ t.tick = s.tick + 1

/-- rst empties the queue, blocks both handshakes, and leaves a ready unit (R230). In a step with rst = 1,
whatever else the host drives: cmd_ready = 0 and rsp_valid = 0, Q becomes empty, no response is delivered
and no command is accepted; and in the first step after it with rst = 0, cmd_ready = 1 and rsp_valid = 0. -/
def Obligations.ResetDropsEverythingInFlight : Prop :=
  ∀ s : State, s.portIn.rst = true →
    s.portOut.cmdReady = false ∧ s.portOut.rspValid = false ∧
    ∃ t, step s = .next t ∧ t.q = [] ∧ t.observed = s.observed ∧ t.host = s.host.tail ∧
      (t.portIn.rst = false → t.portOut.cmdReady = true ∧ t.portOut.rspValid = false)

/-- After reset Q is empty, and the queue invariant holds (R28, R231). State.reset has Q = [], as R28 and R231
state, and meets QueueOk. That nothing has been offered or observed then and that the step count is 0 are
the model's choices (logs 3, 4, 5). -/
def Obligations.StateAfterResetIsTheEmptyQueue : Prop :=
  State.reset.q = [] ∧ QueueOk qdepth State.reset ∧
  State.reset.host = [] ∧ State.reset.observed = [] ∧ State.reset.tick = 0

/-- Every step keeps the queue within QDEPTH and its flagged responses canonical (R26, R65, R230). From every
state in which Q holds at most QDEPTH responses and each response with ill = 1 carries 0x7FC00000, every
step leads to such a state, whatever the host drives. -/
def Obligations.QueueInvariantIsKeptByEveryStep : Prop :=
  ∀ s t : State, QueueOk qdepth s → step s = .next t → QueueOk qdepth t

/-- Without reset, a step delivers the head of Q and appends the response to an accepted command, and no more
(R26, R60, R213). In a step with rst = 0: DELIVER takes place exactly when rsp_ready = 1 and Q is not empty,
and moves the head of Q to the host; ACCEPT takes place exactly when cmd_valid = 1 and |Q| < QDEPTH, and
appends exec(op, a, b) of the command on the ports; nothing else reads or writes Q. That a full unit which
delivers in the step does not accept in it is the model's choice (log 6), which R213 (c) leaves open. -/
def Obligations.QueueMovesByAcceptAndDeliverOnly : Prop :=
  ∀ s : State, s.portIn.rst = false →
    let delivers := s.portIn.rspReady = true ∧ s.q ≠ []
    let accepts := s.portIn.cmdValid = true ∧ s.q.length < qdepth
    ∃ t rest, step s = .next t ∧
      (delivers → ∃ x, s.q = x :: rest ∧ t.observed = s.observed ++ [x]) ∧
      (¬delivers → s.q = rest ∧ t.observed = s.observed) ∧
      (accepts → t.q = rest ++ [respond params s.portIn.command]) ∧
      (¬accepts → t.q = rest)

/-- A full unit refuses commands and waits; an empty one is always ready (R237, R60, R213). With rst = 0, a unit
that holds QDEPTH commands has cmd_ready = 0 and rsp_valid = 1, and a step in which the host takes no
response leaves Q and the observation as they are, whatever is offered. With rst = 0 and Q empty, cmd_ready
= 1. That cmd_ready is 0 also in a step in which a full unit delivers is the model's choice (log 6), which
R213 (c) leaves open. -/
def Obligations.FullQueueOnlyPushesBack : Prop :=
  ∀ s : State, s.portIn.rst = false →
    (qdepth ≤ s.q.length → s.portOut.cmdReady = false ∧ s.portOut.rspValid = true ∧
      (s.portIn.rspReady = false → ∃ t, step s = .next t ∧ t.q = s.q ∧ t.observed = s.observed)) ∧
    (s.q = [] → s.portOut.cmdReady = true)

/-- The unit holds rsp_r and rsp_ill until DELIVER and does not withdraw rsp_valid (R234). If rsp_valid = 1 and
the host does not take the response, then after the step, unless rst is asserted, rsp_valid is still 1 and
rsp_r and rsp_ill are the same, whatever was accepted meanwhile. -/
def Obligations.OfferedResponseIsHeldUntilTaken : Prop :=
  ∀ s t : State, s.portOut.rspValid = true → s.portIn.rspReady = false → step s = .next t →
    t.portIn.rst = false →
    t.portOut.rspValid = true ∧ t.portOut.rspR = s.portOut.rspR ∧ t.portOut.rspIll = s.portOut.rspIll

/-- Over any run without reset, the responses are those of the accepted commands, in order (R46, R26, R30). For
every choice of the parameters, every depth, every number of steps and every start state, if the host
asserts no reset in those steps, then the responses observed followed by those still in Q are the earlier
ones followed by the responses to the accepted commands in the order of acceptance: none lost, none
duplicated, none reordered. The machine's own exec is the case of the default parameters. -/
def Obligations.ResponsesComeInCommandOrder : Prop :=
  (∀ (p : Params) (depth k : Nat) (s : State), NoReset k s →
    (runBy (execWith p) depth k s).observed ++ (runBy (execWith p) depth k s).q =
      s.observed ++ s.q ++ (acceptedBy (execWith p) depth k s).map (respond p)) ∧
  ∀ (i : Instr) (s : State), exec i s = execWith params i s

/-- What is observed depends on the accepted commands only, not on QDEPTH or on when the host acts (R30, R8).
Two runs of units built with the same parameters, whatever these are, of any two depths, over any two host
schedules and numbers of steps, without reset, that start and end with Q empty, with the same responses
observed before, and that accept the same commands in the same order, observe the same responses. -/
def Obligations.ObservationIgnoresDepthAndTiming : Prop :=
  ∀ (p : Params) (d₁ d₂ k₁ k₂ : Nat) (s₁ s₂ : State), NoReset k₁ s₁ → NoReset k₂ s₂ →
    s₁.q = [] → s₂.q = [] → s₁.observed = s₂.observed →
    (runBy (execWith p) d₁ k₁ s₁).q = [] → (runBy (execWith p) d₂ k₂ s₂).q = [] →
    acceptedBy (execWith p) d₁ k₁ s₁ = acceptedBy (execWith p) d₂ k₂ s₂ →
    (runBy (execWith p) d₁ k₁ s₁).observed = (runBy (execWith p) d₂ k₂ s₂).observed

/-- A host that issues commands one at a time gets every response, and the run ends (R30, R46, R237). From any
state with Q empty, a host that offers each command of any list and takes its response before the next sees,
after two steps per command, exactly the responses to those commands in order, and the run is then over,
whatever QDEPTH is. The count of two steps is the model's: a response is on the port in the step after the
ACCEPT (log 1), where the spec says only that it becomes deliverable. -/
def Obligations.PatientHostIsAnsweredCommandByCommand : Prop :=
  ∀ (cs : List Command) (s : State), s.q = [] → s.host = oneAtATime cs →
    ∃ t : State, Host.Core.run Sys2Proof.core (2 * cs.length) s = .next t ∧ t.host = [] ∧ Finished t ∧
      t.observed = s.observed ++ cs.map (respond params)

/-- TOBITS and FROMBITS expand to PASS (R68). In a script line with one operand, the names TOBITS and FROMBITS
give the same command as PASS: code 0x00 with that operand word and b = 0. -/
def Obligations.PseudoInstructionsArePass : Prop :=
  ∀ (results : List (String × Word)) (label : Option String) (x : Operand) (a : Word),
    operandWord results x = some a →
    lineCommand results ⟨label, "PASS", x, none⟩ = some ⟨0x00#8, a, 0#32⟩ ∧
    lineCommand results ⟨label, "TOBITS", x, none⟩ = some ⟨0x00#8, a, 0#32⟩ ∧
    lineCommand results ⟨label, "FROMBITS", x, none⟩ = some ⟨0x00#8, a, 0#32⟩

/-- A script line gives the command of its name and operands, with b = 0 where the line has one operand (R64,
R67, R68). If a script line stands for a command, the command's code is the R64 code of the line's name (a
code that decodes to the instruction of that name; PASS for TOBITS and FROMBITS), which is a format-B code
exactly when the line has a second operand; its operand words are those the line's operands stand for; and a
line with one operand gives b = 0x00000000. -/
def Obligations.ScriptLinesGiveLegalCommands : Prop :=
  ∀ (results : List (String × Word)) (l : ScriptLine) (c : Command), lineCommand results l = some c →
    ((l.mnemonic, c.op) ∈
      [("PASS", 0x00#8), ("GETSIGN", 0x01#8), ("GETEXP", 0x02#8), ("GETEXPV", 0x03#8), ("GETMANT", 0x04#8),
       ("SETSIGN", 0x05#8), ("SETEXP", 0x06#8), ("SETMANT", 0x07#8), ("NORM12", 0x08#8)] ++
      [("ABS", 0x10#8), ("COPYSIGN", 0x11#8), ("FLOOR", 0x12#8), ("CEIL", 0x13#8), ("TRUNC", 0x14#8),
       ("ROUND", 0x15#8), ("FRACT", 0x16#8), ("INVSQRT", 0x20#8), ("SQRT", 0x21#8), ("INV", 0x22#8)] ++
      [("COS", 0x30#8), ("SIN", 0x31#8), ("TAN", 0x32#8), ("ATAN", 0x40#8), ("ATANNORM", 0x41#8),
       ("ATAN2", 0x42#8), ("ATAN2NORM", 0x43#8)] ++
      [("LN", 0x50#8), ("EXP", 0x51#8), ("LOG2", 0x52#8), ("LOG10", 0x53#8), ("LOG", 0x54#8), ("POWF", 0x55#8)] ++
      [("TOBITS", 0x00#8), ("FROMBITS", 0x00#8)]) ∧
    OpCode.legal c.op = true ∧ usesB c.op = l.b.isSome ∧ operandWord results l.a = some c.a ∧
    (∀ x, l.b = some x → operandWord results x = some c.b) ∧
    (l.b = none → c.b = 0x00000000#32)

/-- A run that is over stays over, and nothing more is observed (R28, R30). If the host has no further command
to offer and Q = [] (R30's end of a run), then a step, whatever the host still drives, resets and readiness
for responses included, leads to such a state again and no response is delivered in it. State.reset is such
a state: its queue is empty by R28, and its host offers no command because the list of the host's coming
inputs is empty there, which is the model's choice (log 3) where R30 leaves the host free. -/
def Obligations.FinishedRunIsOver : Prop :=
  (∀ s t : State, Finished s → step s = .next t → Finished t ∧ t.observed = s.observed) ∧
  Finished State.reset
end

