-- ==== Sys2Proof/Laws/Fields.lean ====
section
/-! SUPPORT. The fields of a word and the word made of fields; the magnitude and the word made of a
magnitude. -/

namespace Sys2Proof.Machine

/-! ### Fields as numbers -/

/-- `{x, y}` as a number. -/
theorem toNat_append_add {n m : Nat} (x : BitVec n) (y : BitVec m) :
    (x ++ y).toNat = x.toNat * 2 ^ m + y.toNat := by
  rw [BitVec.toNat_append, ← Nat.shiftLeft_add_eq_or_of_lt y.isLt, Nat.shiftLeft_eq]

theorem signBit_eq (w : Word) : signBit w = decide (2 ^ 31 ≤ w.toNat) := by
  rw [signBit, ← BitVec.msb_eq_getLsbD_last, BitVec.msb_eq_decide]

theorem expBits_toNat (w : Word) : (expBits w).toNat = w.toNat / 2 ^ 23 % 2 ^ 8 := by
  simp [expBits, Nat.shiftRight_eq_div_pow]

theorem mantBits_toNat (w : Word) : (mantBits w).toNat = w.toNat % 2 ^ 23 := by
  simp [mantBits]

theorem ofFields_toNat (s : Bool) (e : BitVec 8) (m : BitVec 23) :
    (ofFields s e m).toNat = s.toNat * 2 ^ 31 + e.toNat * 2 ^ 23 + m.toNat := by
  have h : (ofFields s e m).toNat = ((BitVec.ofBool s ++ e) ++ m).toNat := rfl
  rw [h, toNat_append_add, toNat_append_add]
  cases s
  · simp
  · simp; ring

@[simp] theorem signBit_ofFields (s : Bool) (e : BitVec 8) (m : BitVec 23) : signBit (ofFields s e m) = s := by
  have he := e.isLt
  have hm := m.isLt
  rw [signBit_eq, ofFields_toNat]
  cases s <;> simp <;> omega

@[simp] theorem expBits_ofFields (s : Bool) (e : BitVec 8) (m : BitVec 23) : expBits (ofFields s e m) = e := by
  have he := e.isLt
  have hm := m.isLt
  apply BitVec.eq_of_toNat_eq
  rw [expBits_toNat, ofFields_toNat]
  cases s <;> simp <;> omega

@[simp] theorem mantBits_ofFields (s : Bool) (e : BitVec 8) (m : BitVec 23) : mantBits (ofFields s e m) = m := by
  have he := e.isLt
  have hm := m.isLt
  apply BitVec.eq_of_toNat_eq
  rw [mantBits_toNat, ofFields_toNat]
  cases s <;> simp <;> omega

/-- A word is the word of its fields (R6, R80). -/
theorem ofFields_eta (w : Word) : ofFields (signBit w) (expBits w) (mantBits w) = w := by
  have hw := w.isLt
  apply BitVec.eq_of_toNat_eq
  rw [ofFields_toNat, signBit_eq, expBits_toNat, mantBits_toNat]
  by_cases h : 2 ^ 31 ≤ w.toNat
  · rw [decide_eq_true h, Bool.toNat_true]; omega
  · rw [decide_eq_false h, Bool.toNat_false]; omega

/-- Two words with the same fields are the same word. -/
theorem eq_of_fields {v w : Word} (hs : signBit v = signBit w) (he : expBits v = expBits w)
    (hm : mantBits v = mantBits w) : v = w := by
  rw [← ofFields_eta v, ← ofFields_eta w, hs, he, hm]

/-! ### Classes -/

theorem low31_toNat (w : Word) :
    (w.extractLsb' 0 31).toNat = (expBits w).toNat * 2 ^ 23 + (mantBits w).toNat := by
  rw [expBits_toNat, mantBits_toNat]
  simp
  omega

theorem isZero_iff (w : Word) : isZero w = true ↔ expBits w = 0#8 ∧ mantBits w = 0#23 := by
  have h := low31_toNat w
  have hm := (mantBits w).isLt
  simp only [isZero, decide_eq_true_eq, ← BitVec.toNat_inj, h]
  simp

theorem isInf_iff (w : Word) : isInf w = true ↔ expBits w = 255#8 ∧ mantBits w = 0#23 := by
  have h := low31_toNat w
  have hm := (mantBits w).isLt
  have he := (expBits w).isLt
  simp only [isInf, decide_eq_true_eq, ← BitVec.toNat_inj, h]
  simp
  omega

theorem isNaN_iff (w : Word) : isNaN w = true ↔ expBits w = 255#8 ∧ mantBits w ≠ 0#23 := by
  simp [isNaN]

theorem isSub_iff (w : Word) : isSub w = true ↔ expBits w = 0#8 ∧ mantBits w ≠ 0#23 := by
  simp [isSub]

theorem isFinite_iff (w : Word) : isFinite w = true ↔ expBits w ≠ 255#8 := by
  simp [isFinite]

/-- A word is finite, an infinity or a NaN, and only one of the three (R81). -/
theorem isNaN_of_isFinite {w : Word} (h : isFinite w = true) : isNaN w = false := by
  rw [isFinite_iff] at h
  simp [isNaN, h]

theorem isInf_of_isFinite {w : Word} (h : isFinite w = true) : isInf w = false := by
  rw [isFinite_iff] at h
  rw [Bool.eq_false_iff, Ne, isInf_iff]
  exact fun c => h c.1

/-! ### Magnitudes -/

theorem magnitude_zero_iff (w : Word) : magnitude w = 0 ↔ isZero w = true := by
  rw [isZero_iff, magnitude]
  split <;> rename_i h
  · simp [h, ← BitVec.toNat_inj]
  · simp [h]

theorem magnitude_lt_of_isFinite {w : Word} (h : isFinite w = true) : magnitude w < 2 ^ 277 := by
  rw [isFinite_iff] at h
  have hm := (mantBits w).isLt
  have he := (expBits w).isLt
  have he' : (expBits w).toNat ≠ 255 := fun c => h (BitVec.eq_of_toNat_eq (by simpa using c))
  rw [magnitude]
  split
  · exact hm.trans (Nat.pow_lt_pow_right (by omega) (by omega))
  · calc (2 ^ 23 + (mantBits w).toNat) * 2 ^ ((expBits w).toNat - 1)
        < 2 ^ 24 * 2 ^ ((expBits w).toNat - 1) :=
          Nat.mul_lt_mul_of_pos_right (by omega) (Nat.two_pow_pos _)
      _ = 2 ^ (24 + ((expBits w).toNat - 1)) := by rw [pow_add]
      _ ≤ 2 ^ 277 := Nat.pow_le_pow_right (by omega) (by omega)

theorem signBit_ofMagnitude (s : Bool) (v : Nat) : signBit (ofMagnitude s v) = s := by
  unfold ofMagnitude
  split
  · simp
  · split <;> simp

/-- The magnitude of a normal word lies in the binade of its exponent field. -/
theorem log2_magnitude_of_normal {w : Word} (h : expBits w ≠ 0#8) :
    Nat.log2 (magnitude w) = (expBits w).toNat + 22 := by
  have hm := (mantBits w).isLt
  have he : (expBits w).toNat ≠ 0 := fun c => h (BitVec.eq_of_toNat_eq (by simpa using c))
  rw [magnitude, if_neg h]
  have hne : (2 ^ 23 + (mantBits w).toNat) * 2 ^ ((expBits w).toNat - 1) ≠ 0 := by positivity
  rw [Nat.log2_eq_iff hne]
  have e1 : (expBits w).toNat + 22 = 23 + ((expBits w).toNat - 1) := by omega
  have e2 : (expBits w).toNat + 22 + 1 = 24 + ((expBits w).toNat - 1) := by omega
  rw [e2, e1, pow_add, pow_add]
  exact ⟨Nat.mul_le_mul_right _ (by omega), Nat.mul_lt_mul_of_pos_right (by omega) (Nat.two_pow_pos _)⟩

theorem magnitude_ge_of_normal {w : Word} (h : expBits w ≠ 0#8) : 2 ^ 23 ≤ magnitude w := by
  rw [magnitude, if_neg h]
  exact Nat.le_trans (Nat.le_add_right _ _) (Nat.le_mul_of_pos_right _ (Nat.two_pow_pos _))

/-- A finite word is the word of its sign and magnitude (R81, R84). -/
theorem ofMagnitude_magnitude {w : Word} (h : isFinite w = true) :
    ofMagnitude (signBit w) (magnitude w) = w := by
  have hf := h
  rw [isFinite_iff] at h
  have hm := (mantBits w).isLt
  have he := (expBits w).isLt
  by_cases h0 : expBits w = 0#8
  · have hv : magnitude w = (mantBits w).toNat := by rw [magnitude, if_pos h0]
    rw [ofMagnitude, hv, if_pos (by omega)]
    apply eq_of_fields <;> simp [h0]
  · have hl := log2_magnitude_of_normal h0
    have hge := magnitude_ge_of_normal h0
    have he0 : (expBits w).toNat ≠ 0 := fun c => h0 (BitVec.eq_of_toNat_eq (by simpa using c))
    have he255 : (expBits w).toNat ≠ 255 := fun c => h (BitVec.eq_of_toNat_eq (by simpa using c))
    rw [ofMagnitude, if_neg (by omega), if_neg (by omega), hl]
    apply eq_of_fields
    · simp
    · simp
    · have e1 : (expBits w).toNat + 22 - 23 = (expBits w).toNat - 1 := by omega
      rw [e1, magnitude, if_neg h0, Nat.mul_div_cancel _ (Nat.two_pow_pos _)]
      apply BitVec.eq_of_toNat_eq
      simpa using hm

/-- The leading bit of `c · 2^k` stands `k` places above that of `c`. -/
theorem log2_mul_two_pow {c : Nat} (hc : c ≠ 0) (k : Nat) : Nat.log2 (c * 2 ^ k) = Nat.log2 c + k := by
  have hp := Nat.two_pow_pos k
  rw [Nat.log2_eq_iff (Nat.mul_ne_zero hc hp.ne')]
  have e : Nat.log2 c + k + 1 = (Nat.log2 c + 1) + k := by omega
  rw [e, pow_add, pow_add]
  exact ⟨Nat.mul_le_mul_right _ (Nat.log2_self_le hc), Nat.mul_lt_mul_of_pos_right Nat.lt_log2_self hp⟩

/-- The word made of a magnitude of at most 24 significant bits, below `2^277` units, has that magnitude. -/
theorem magnitude_ofMagnitude (s : Bool) {c k : Nat} (hc : c < 2 ^ 24) (hv : c * 2 ^ k < 2 ^ 277) :
    magnitude (ofMagnitude s (c * 2 ^ k)) = c * 2 ^ k := by
  unfold ofMagnitude
  split
  · rename_i h
    simp only [magnitude, expBits_ofFields, mantBits_ofFields, if_pos]
    simpa using Nat.mod_eq_of_lt h
  · rename_i h
    have hne : c * 2 ^ k ≠ 0 := by omega
    have hc0 : c ≠ 0 := fun e => hne (by simp [e])
    have hl := log2_mul_two_pow hc0 k
    have h277 : Nat.log2 (c * 2 ^ k) < 277 := (Nat.log2_lt hne).2 hv
    have h23 : 23 ≤ Nat.log2 (c * 2 ^ k) := (Nat.le_log2 hne).2 (by omega)
    have hlc : Nat.log2 c < 24 := (Nat.log2_lt hc0).2 hc
    rw [if_neg (by omega)]
    generalize hL : Nat.log2 (c * 2 ^ k) = L at *
    obtain ⟨d, hd, hd1, hd2⟩ : ∃ d, c * 2 ^ k = d * 2 ^ (L - 23) ∧ 2 ^ 23 ≤ d ∧ d < 2 ^ 24 := by
      refine ⟨c * 2 ^ (k - (L - 23)), ?_, ?_, ?_⟩
      · rw [mul_assoc, ← pow_add]; congr 2; omega
      · have : 2 ^ Nat.log2 c * 2 ^ (k - (L - 23)) ≤ c * 2 ^ (k - (L - 23)) :=
          Nat.mul_le_mul_right _ (Nat.log2_self_le hc0)
        rw [← pow_add] at this
        exact le_trans (Nat.pow_le_pow_right (by omega) (by omega)) this
      · have : c * 2 ^ (k - (L - 23)) < 2 ^ (Nat.log2 c + 1) * 2 ^ (k - (L - 23)) :=
          Nat.mul_lt_mul_of_pos_right Nat.lt_log2_self (Nat.two_pow_pos _)
        rw [← pow_add] at this
        exact lt_of_lt_of_le this (Nat.pow_le_pow_right (by omega) (by omega))
    have hne8 : BitVec.ofNat 8 (L - 22) ≠ 0#8 := by
      rw [Ne, ← BitVec.toNat_inj]; simp; omega
    rw [magnitude, expBits_ofFields, mantBits_ofFields, if_neg hne8, hd, Nat.mul_div_cancel _ (Nat.two_pow_pos _)]
    simp only [BitVec.toNat_ofNat]
    rw [Nat.mod_eq_of_lt (by omega : L - 22 < 2 ^ 8)]
    congr 1
    · omega

end Sys2Proof.Machine
end

