-- ==== Sys2Proof/Laws/PerInstr.lean ====
section
/-! SUPPORT. Statements made instruction by instruction. `LegalCode`: the operation code an instruction is
encoded with is none of those R65 lists as illegal. -/

namespace Sys2Proof.Laws.LegalCode

/-- The instruction's operation code is legal (R64, R65). -/
def Statement (i : Instr) : Prop := OpCode.legal i.command.op = true

theorem pass (a : Word) : Statement (.pass a) := (by decide : OpCode.legal 0x00#8 = true)
theorem getsign (a : Word) : Statement (.getsign a) := (by decide : OpCode.legal 0x01#8 = true)
theorem getexp (a : Word) : Statement (.getexp a) := (by decide : OpCode.legal 0x02#8 = true)
theorem getexpv (a : Word) : Statement (.getexpv a) := (by decide : OpCode.legal 0x03#8 = true)
theorem getmant (a : Word) : Statement (.getmant a) := (by decide : OpCode.legal 0x04#8 = true)
theorem setsign (a b : Word) : Statement (.setsign a b) := (by decide : OpCode.legal 0x05#8 = true)
theorem setexp (a b : Word) : Statement (.setexp a b) := (by decide : OpCode.legal 0x06#8 = true)
theorem setmant (a b : Word) : Statement (.setmant a b) := (by decide : OpCode.legal 0x07#8 = true)
theorem norm12 (a : Word) : Statement (.norm12 a) := (by decide : OpCode.legal 0x08#8 = true)
theorem abs (a : Word) : Statement (.abs a) := (by decide : OpCode.legal 0x10#8 = true)
theorem copysign (a b : Word) : Statement (.copysign a b) := (by decide : OpCode.legal 0x11#8 = true)
theorem floor (a : Word) : Statement (.floor a) := (by decide : OpCode.legal 0x12#8 = true)
theorem ceil (a : Word) : Statement (.ceil a) := (by decide : OpCode.legal 0x13#8 = true)
theorem trunc (a : Word) : Statement (.trunc a) := (by decide : OpCode.legal 0x14#8 = true)
theorem round (a : Word) : Statement (.round a) := (by decide : OpCode.legal 0x15#8 = true)
theorem fract (a : Word) : Statement (.fract a) := (by decide : OpCode.legal 0x16#8 = true)
theorem invsqrt (a : Word) : Statement (.invsqrt a) := (by decide : OpCode.legal 0x20#8 = true)
theorem sqrt (a : Word) : Statement (.sqrt a) := (by decide : OpCode.legal 0x21#8 = true)
theorem inv (a : Word) : Statement (.inv a) := (by decide : OpCode.legal 0x22#8 = true)
theorem cos (a : Word) : Statement (.cos a) := (by decide : OpCode.legal 0x30#8 = true)
theorem sin (a : Word) : Statement (.sin a) := (by decide : OpCode.legal 0x31#8 = true)
theorem tan (a : Word) : Statement (.tan a) := (by decide : OpCode.legal 0x32#8 = true)
theorem atan (a : Word) : Statement (.atan a) := (by decide : OpCode.legal 0x40#8 = true)
theorem atannorm (a : Word) : Statement (.atannorm a) := (by decide : OpCode.legal 0x41#8 = true)
theorem atan2 (a b : Word) : Statement (.atan2 a b) := (by decide : OpCode.legal 0x42#8 = true)
theorem atan2norm (a b : Word) : Statement (.atan2norm a b) := (by decide : OpCode.legal 0x43#8 = true)
theorem ln (a : Word) : Statement (.ln a) := (by decide : OpCode.legal 0x50#8 = true)
theorem exp (a : Word) : Statement (.exp a) := (by decide : OpCode.legal 0x51#8 = true)
theorem log2 (a : Word) : Statement (.log2 a) := (by decide : OpCode.legal 0x52#8 = true)
theorem log10 (a : Word) : Statement (.log10 a) := (by decide : OpCode.legal 0x53#8 = true)
theorem log (a b : Word) : Statement (.log a b) := (by decide : OpCode.legal 0x54#8 = true)
theorem powf (a b : Word) : Statement (.powf a b) := (by decide : OpCode.legal 0x55#8 = true)

end Sys2Proof.Laws.LegalCode
end

