-- ==== Sys2Proof/Laws/State.lean ====
section
/-! SUPPORT. One lemma per field and per update of the state, true by `rfl`, so that no later proof unfolds an
update. -/

namespace Sys2Proof.Machine

variable {opW : Nat}

@[simp] theorem State.push_q (s : State opW) (x : Response) : (s.push x).q = s.q ++ [x] := rfl
@[simp] theorem State.push_host (s : State opW) (x : Response) : (s.push x).host = s.host := rfl
@[simp] theorem State.push_observed (s : State opW) (x : Response) : (s.push x).observed = s.observed := rfl
@[simp] theorem State.push_tick (s : State opW) (x : Response) : (s.push x).tick = s.tick := rfl

@[simp] theorem State.answer_q (s : State opW) (r : Word) : (s.answer r).q = s.q ++ [⟨r, false⟩] := rfl
@[simp] theorem State.answer_host (s : State opW) (r : Word) : (s.answer r).host = s.host := rfl
@[simp] theorem State.answer_observed (s : State opW) (r : Word) : (s.answer r).observed = s.observed := rfl
@[simp] theorem State.answer_tick (s : State opW) (r : Word) : (s.answer r).tick = s.tick := rfl

@[simp] theorem State.answerIllegal_q (s : State opW) :
    s.answerIllegal.q = s.q ++ [⟨Config.CNAN, true⟩] := rfl
@[simp] theorem State.answerIllegal_host (s : State opW) : s.answerIllegal.host = s.host := rfl
@[simp] theorem State.answerIllegal_observed (s : State opW) : s.answerIllegal.observed = s.observed := rfl
@[simp] theorem State.answerIllegal_tick (s : State opW) : s.answerIllegal.tick = s.tick := rfl

@[simp] theorem State.clear_q (s : State opW) : s.clear.q = [] := rfl
@[simp] theorem State.clear_host (s : State opW) : s.clear.host = s.host := rfl
@[simp] theorem State.clear_observed (s : State opW) : s.clear.observed = s.observed := rfl
@[simp] theorem State.clear_tick (s : State opW) : s.clear.tick = s.tick := rfl

@[simp] theorem State.nextInputs_q (s : State opW) : s.nextInputs.q = s.q := rfl
@[simp] theorem State.nextInputs_host (s : State opW) : s.nextInputs.host = s.host.tail := rfl
@[simp] theorem State.nextInputs_observed (s : State opW) : s.nextInputs.observed = s.observed := rfl
@[simp] theorem State.nextInputs_tick (s : State opW) : s.nextInputs.tick = s.tick + 1 := rfl

@[simp] theorem State.deliver_q (s : State opW) : s.deliver.q = s.q.tail := by
  unfold State.deliver; split <;> simp_all
@[simp] theorem State.deliver_host (s : State opW) : s.deliver.host = s.host := by
  unfold State.deliver; split <;> rfl
@[simp] theorem State.deliver_observed (s : State opW) : s.deliver.observed = s.observed ++ s.q.take 1 := by
  unfold State.deliver; split <;> simp_all
@[simp] theorem State.deliver_tick (s : State opW) : s.deliver.tick = s.tick := by
  unfold State.deliver; split <;> rfl

/-- A delivery moves the response at the head of `Q` to the host; none is lost and none is made. -/
theorem State.deliver_conserves (s : State opW) : s.deliver.observed ++ s.deliver.q = s.observed ++ s.q := by
  cases h : s.q <;> simp [h]

@[simp] theorem State.offerAt_observed (d : Nat) (s : State opW) (w : BitVec (commandWidth opW)) :
    (s.offerAt d w).observed = s.observed := rfl
@[simp] theorem State.offerAt_tick (d : Nat) (s : State opW) (w : BitVec (commandWidth opW)) :
    (s.offerAt d w).tick = s.tick := rfl
@[simp] theorem State.offerAt_portIn (d : Nat) (s : State opW) (w : BitVec (commandWidth opW)) :
    (s.offerAt d w).portIn = s.portIn.offering w := rfl

@[simp] theorem State.reset_q : State.reset.q = [] := rfl
@[simp] theorem State.reset_host : State.reset.host = [] := rfl
@[simp] theorem State.reset_observed : State.reset.observed = [] := rfl
@[simp] theorem State.reset_tick : State.reset.tick = 0 := rfl

end Sys2Proof.Machine
end

