-- ==== Sys2Proof/Laws/Port.lean ====
section
/-! SUPPORT. What the shared operations and one step can do, said once: an instruction answers once, a command
is answered once, and a step is a reset, an acceptance or neither (R26, R63, R213, R230). -/

namespace Sys2Proof.Machine

open Sys2Proof.Config

variable {opW : Nat}

/-- The machine is the unit built with the default parameters: each meaning answers with its result. -/
theorem exec_eq_execWith : exec = execWith params := by
  funext i s
  cases i <;> rfl

/-- Every instruction runs and adds one response with `ill = 0`, whatever the parameters. -/
@[simp] theorem execWith_apply (p : Params) (i : Instr) (s : State opW) :
    execWith p i s = .next (s.answer (result p i)) := rfl

/-- Every command is answered with one response, which is a function of the command and the parameters. -/
theorem accept_execWith (p : Params) (c : Command opW) (s : State opW) :
    accept (execWith p) c s = .next (s.push (respond p c)) := by
  unfold accept respond
  split <;> rfl

/-- A response with `ill = 1` carries the canonical NaN (R65). -/
theorem respond_ill (p : Params) (c : Command opW) (h : (respond p c).ill = true) :
    (respond p c).r = CNAN := by
  unfold respond at *
  split at * <;> simp_all [illOfDefined]

/-- What one step can do: the queue is emptied, or one response is added, or none is. -/
theorem stepBy_cases (p : Params) (depth : Nat) (s : State opW) :
    (s.portIn.rst = true ∧ stepBy (execWith p) depth s = .next s.nextInputs.clear) ∨
    (s.portIn.rst = false ∧ s.acceptsAt depth = true ∧ s.q.length < depth ∧
      stepBy (execWith p) depth s = .next (s.afterDeliver.push (respond p s.portIn.command))) ∨
    (s.portIn.rst = false ∧ s.acceptsAt depth = false ∧
      stepBy (execWith p) depth s = .next s.afterDeliver) := by
  unfold stepBy
  rw [accept_execWith]
  cases hr : s.portIn.rst
  · cases ha : s.acceptsAt depth
    · simp
    · refine .inr (.inl ⟨rfl, rfl, ?_, by simp⟩)
      simp [State.acceptsAt, State.cmdReadyAt] at ha
      exact ha.2.1
  · simp

/-- The same of the machine's step. -/
theorem step_cases (s : State) :
    (s.portIn.rst = true ∧ step s = .next s.nextInputs.clear) ∨
    (s.portIn.rst = false ∧ s.acceptsAt qdepth = true ∧ s.q.length < qdepth ∧
      step s = .next (s.afterDeliver.push (respond params s.portIn.command))) ∨
    (s.portIn.rst = false ∧ s.acceptsAt qdepth = false ∧ step s = .next s.afterDeliver) := by
  unfold step
  rw [exec_eq_execWith]
  exact stepBy_cases params qdepth s

/-! ### The delivery of a step -/

@[simp] theorem State.afterDeliver_host (s : State opW) : s.afterDeliver.host = s.host.tail := by
  unfold State.afterDeliver; split <;> simp
@[simp] theorem State.afterDeliver_tick (s : State opW) : s.afterDeliver.tick = s.tick + 1 := by
  unfold State.afterDeliver; split <;> simp

theorem State.afterDeliver_q (s : State opW) : s.afterDeliver.q = if s.delivers then s.q.tail else s.q := by
  unfold State.afterDeliver; split <;> simp

theorem State.afterDeliver_observed (s : State opW) :
    s.afterDeliver.observed = if s.delivers then s.observed ++ s.q.take 1 else s.observed := by
  unfold State.afterDeliver; split <;> simp

/-- A step's delivery moves a response from `Q` to the host and loses none. -/
theorem State.afterDeliver_conserves (s : State opW) :
    s.afterDeliver.observed ++ s.afterDeliver.q = s.observed ++ s.q := by
  unfold State.afterDeliver
  split
  · exact State.deliver_conserves s.nextInputs
  · rfl

theorem State.afterDeliver_length_le (s : State opW) : s.afterDeliver.q.length ≤ s.q.length := by
  rw [State.afterDeliver_q]; split <;> simp

theorem State.mem_of_mem_afterDeliver {s : State opW} {x : Response} (h : x ∈ s.afterDeliver.q) : x ∈ s.q := by
  rw [State.afterDeliver_q] at h
  split at h
  · exact List.mem_of_mem_tail h
  · exact h

/-- `nextBy` is the state that `stepBy` answers. -/
theorem nextBy_of_stepBy {run : Executor opW} {depth : Nat} {s t : State opW} (h : stepBy run depth s = .next t) :
    nextBy run depth s = t := by
  unfold nextBy; rw [h]

end Sys2Proof.Machine
end

