-- ==== Sys2Proof/Laws/Rounding.lean ====
section
/-! SUPPORT. What rounding to nearest even does: it leaves a representable value unchanged and does not
go below one. -/

namespace Sys2Proof.Machine

open Sys2Proof.Config

/-- `nearestEven` is the quotient or the next integer. -/
theorem nearestEven_cases (N D : Nat) : nearestEven N D = N / D ∨ nearestEven N D = N / D + 1 := by
  unfold nearestEven
  split_ifs <;> simp

/-- `nearestEven` is within half of the fraction, and a result exactly half away is even. -/
theorem nearestEven_spec (N : Nat) {D : Nat} (hD : 0 < D) :
    2 * (nearestEven N D * D) ≤ 2 * N + D ∧ 2 * N ≤ 2 * (nearestEven N D * D) + D ∧
      (2 * (nearestEven N D * D) = 2 * N + D ∨ 2 * N = 2 * (nearestEven N D * D) + D →
        nearestEven N D % 2 = 0) := by
  have h := Nat.div_add_mod N D
  have hlt := Nat.mod_lt N hD
  have hm : N / D * D = D * (N / D) := Nat.mul_comm _ _
  have hm1 : (N / D + 1) * D = D * (N / D) + D := by ring
  unfold nearestEven
  split_ifs with h1 h2 h3
  · rw [hm]; omega
  · rw [hm1]; omega
  · rw [hm]; omega
  · rw [hm1]; omega

/-- A whole number is rounded to itself. -/
theorem nearestEven_mul_self (n : Nat) {D : Nat} (hD : 0 < D) : nearestEven (n * D) D = n := by
  unfold nearestEven
  rw [Nat.mul_mod_left, Nat.mul_div_cancel _ hD, if_pos (by omega)]

/-- A rounded real has the sign of the real, whatever the rounding (R84). -/
theorem signBit_round32 (rounding : Rounding) (s : Bool) (N D : Nat) : signBit (round32 rounding s N D) = s :=
  signBit_ofMagnitude s _

/-- A magnitude of at most 24 significant bits is rounded to itself, whatever fraction it is written as. -/
theorem round32_exact (s : Bool) {c k D : Nat} (hc : c < 2 ^ 24) (hD : 0 < D) :
    round32 tiesToEven s (c * 2 ^ k * D) D = ofMagnitude s (c * 2 ^ k) := by
  have hq : ∃ d, c * 2 ^ k = d * 2 ^ quantum (c * 2 ^ k * D) D := by
    unfold quantum
    rw [Nat.mul_div_cancel _ hD]
    split
    · exact ⟨c * 2 ^ k, by simp⟩
    · rename_i h
      have hc0 : c ≠ 0 := fun e => by simp [e] at h
      have hl := log2_mul_two_pow hc0 k
      have hlc : Nat.log2 c < 24 := (Nat.log2_lt hc0).2 hc
      refine ⟨c * 2 ^ (k - (Nat.log2 (c * 2 ^ k) - 23)), ?_⟩
      rw [mul_assoc, ← pow_add]
      congr 2
      omega
  obtain ⟨d, hd⟩ := hq
  unfold round32 tiesToEven
  generalize quantum (c * 2 ^ k * D) D = e at *
  rw [hd]
  have : d * 2 ^ e * D = d * (D * 2 ^ e) := by ring
  rw [this, nearestEven_mul_self _ (Nat.mul_pos hD (Nat.two_pow_pos e))]

/-- The magnitude of a finite word has at most 24 significant bits (R81). -/
theorem magnitude_significand (w : Word) : ∃ c k, magnitude w = c * 2 ^ k ∧ c < 2 ^ 24 := by
  have hm := (mantBits w).isLt
  unfold magnitude
  split
  · exact ⟨(mantBits w).toNat, 0, by simp, by omega⟩
  · exact ⟨_, _, rfl, by omega⟩

/-- The magnitude of a word, written as any fraction, is rounded to the word of that magnitude. -/
theorem round32_magnitude (s : Bool) (w : Word) {D : Nat} (hD : 0 < D) :
    round32 tiesToEven s (magnitude w * D) D = ofMagnitude s (magnitude w) := by
  obtain ⟨c, k, h, hc⟩ := magnitude_significand w
  rw [h, round32_exact s hc hD]

/-- Rounding leaves the value of a finite word unchanged (R84). -/
theorem round32_of_isFinite {w : Word} (h : isFinite w = true) :
    round32 tiesToEven (signBit w) (magnitude w) 1 = w := by
  have := round32_magnitude (signBit w) w (D := 1) Nat.one_pos
  rw [Nat.mul_one] at this
  rw [this, ofMagnitude_magnitude h]

/-! ### Bounds of a rounded real -/

/-- A rounded fraction is not below the whole number under it. -/
theorem div_le_nearestEven (N D : Nat) : N / D ≤ nearestEven N D := by
  rcases nearestEven_cases N D with h | h <;> omega

/-- A rounded real is at most `2^24` quanta, which are `2^23` quanta of the next binade. -/
theorem nearestEven_quantum_le (N D : Nat) : nearestEven N (D * 2 ^ quantum N D) ≤ 2 ^ 24 := by
  have h : N / (D * 2 ^ quantum N D) < 2 ^ 24 := by
    rw [← Nat.div_div_eq_div_mul]
    unfold quantum
    split
    · simp; omega
    · rename_i h
      have hl := (Nat.le_log2 (by omega)).2 (by omega : 2 ^ 23 ≤ N / D)
      rw [Nat.div_lt_iff_lt_mul (Nat.two_pow_pos _), ← pow_add]
      exact lt_of_lt_of_le Nat.lt_log2_self (Nat.pow_le_pow_right (by omega) (by omega))
  rcases nearestEven_cases N (D * 2 ^ quantum N D) with h' | h' <;> omega

/-- Cutting a real to whole quanta does not take it below a magnitude of at most 24 significant bits. -/
theorem le_quanta {c k N D : Nat} (hc : c < 2 ^ 24) (hv : c * 2 ^ k ≤ N / D) :
    c * 2 ^ k ≤ N / D / 2 ^ quantum N D * 2 ^ quantum N D := by
  unfold quantum
  split
  · simpa using hv
  · rename_i h23
    have hne : N / D ≠ 0 := by omega
    have hL := (Nat.le_log2 hne).2 (by omega : 2 ^ 23 ≤ N / D)
    have hself := Nat.log2_self_le hne
    generalize Nat.log2 (N / D) = L at *
    by_cases hlt : c * 2 ^ k < 2 ^ L
    · have h1 : 2 ^ 23 ≤ N / D / 2 ^ (L - 23) := by
        rw [Nat.le_div_iff_mul_le (Nat.two_pow_pos _), ← pow_add]
        exact le_trans (Nat.pow_le_pow_right (by omega) (by omega)) hself
      refine le_trans hlt.le (le_trans ?_ (Nat.mul_le_mul_right _ h1))
      rw [← pow_add]
      exact Nat.pow_le_pow_right (by omega) (by omega)
    · have hc0 : c ≠ 0 := by rintro rfl; simp at hlt
      have hlc : Nat.log2 c < 24 := (Nat.log2_lt hc0).2 hc
      have hl := log2_mul_two_pow hc0 k
      have hge : L ≤ Nat.log2 (c * 2 ^ k) :=
        (Nat.le_log2 (Nat.mul_ne_zero hc0 (Nat.two_pow_pos _).ne')).2 (by omega)
      have e : c * 2 ^ k = c * 2 ^ (k - (L - 23)) * 2 ^ (L - 23) := by
        rw [mul_assoc, ← pow_add]; congr 2; omega
      rw [e] at hv ⊢
      exact Nat.mul_le_mul_right _ ((Nat.le_div_iff_mul_le (Nat.two_pow_pos _)).2 hv)

/-- A real of at least `c * 2^k` units, of at most 24 significant bits, is rounded to a word of at least that
magnitude, or to the infinity (R84). -/
theorem le_magnitude_round32 (s : Bool) {c k N D : Nat} (hc : c < 2 ^ 24) (hD : 0 < D) (h : c * 2 ^ k * D ≤ N) :
    round32 tiesToEven s N D = infOf s ∨ c * 2 ^ k ≤ magnitude (round32 tiesToEven s N D) := by
  have hle : c * 2 ^ k ≤ nearestEven N (D * 2 ^ quantum N D) * 2 ^ quantum N D := by
    refine le_trans (le_quanta hc ((Nat.le_div_iff_mul_le hD).2 h)) (Nat.mul_le_mul_right _ ?_)
    rw [Nat.div_div_eq_div_mul]
    exact div_le_nearestEven N _
  have hn := nearestEven_quantum_le N D
  unfold round32 tiesToEven
  generalize nearestEven N (D * 2 ^ quantum N D) = n at *
  generalize quantum N D = q at *
  by_cases h277 : n * 2 ^ q < 2 ^ 277
  · right
    rcases Nat.lt_or_ge n (2 ^ 24) with hn' | hn'
    · rwa [magnitude_ofMagnitude s hn' h277]
    · obtain rfl : n = 2 ^ 24 := le_antisymm hn hn'
      have e : (2 : Nat) ^ 24 * 2 ^ q = 2 ^ 23 * 2 ^ (q + 1) := by rw [← pow_add, ← pow_add]; congr 1; omega
      rw [e] at h277 hle ⊢
      rwa [magnitude_ofMagnitude s (by norm_num) h277]
  · left
    have hbig : (2 : Nat) ^ 23 ≤ 2 ^ 277 := Nat.pow_le_pow_right (by omega) (by omega)
    have hne : n * 2 ^ q ≠ 0 := by have := Nat.two_pow_pos 23; omega
    rw [ofMagnitude, if_neg (by omega), if_pos ((Nat.le_log2 hne).2 (by omega)), infOf]

end Sys2Proof.Machine
end

