-- ==== Sys2Proof/Laws/Values.lean ====
section
/-! SUPPORT. The sign operations on fields (R90), the values of finite words in units of `2^-149` (R81), and the
additions that are exact (R84, R85). -/

namespace Sys2Proof.Machine

open Sys2Proof.Config

/-! ### Sign operations -/

@[simp] theorem signBit_fneg (w : Word) : signBit (fneg w) = !signBit w := by
  simp [signBit, fneg]

@[simp] theorem expBits_fneg (w : Word) : expBits (fneg w) = expBits w := by
  ext i hi
  have h : ∀ j < 8, (0x80000000#32).getLsbD (23 + j) = false := by decide
  simp [expBits, fneg, h i hi]

@[simp] theorem mantBits_fneg (w : Word) : mantBits (fneg w) = mantBits w := by
  ext i hi
  have h : ∀ j < 23, (0x80000000#32).getLsbD j = false := by decide
  simp [mantBits, fneg, h i hi]

@[simp] theorem signBit_fabs (w : Word) : signBit (fabs w) = false := by
  simp [signBit, fabs]

@[simp] theorem expBits_fabs (w : Word) : expBits (fabs w) = expBits w := by
  ext i hi
  have h : ∀ j < 8, (0x7FFFFFFF#32).getLsbD (23 + j) = true := by decide
  simp [expBits, fabs, h i hi]

@[simp] theorem mantBits_fabs (w : Word) : mantBits (fabs w) = mantBits w := by
  ext i hi
  have h : ∀ j < 23, (0x7FFFFFFF#32).getLsbD j = true := by decide
  simp [mantBits, fabs, h i hi]

@[simp] theorem fneg_fneg (w : Word) : fneg (fneg w) = w := by
  apply eq_of_fields <;> simp

@[simp] theorem magnitude_fneg (w : Word) : magnitude (fneg w) = magnitude w := by
  simp [magnitude]

@[simp] theorem magnitude_fabs (w : Word) : magnitude (fabs w) = magnitude w := by
  simp [magnitude]

@[simp] theorem isNaN_fneg (w : Word) : isNaN (fneg w) = isNaN w := by simp [isNaN]
@[simp] theorem isNaN_fabs (w : Word) : isNaN (fabs w) = isNaN w := by simp [isNaN]
@[simp] theorem isFinite_fneg (w : Word) : isFinite (fneg w) = isFinite w := by simp [isFinite]
@[simp] theorem isFinite_fabs (w : Word) : isFinite (fabs w) = isFinite w := by simp [isFinite]

@[simp] theorem isZero_fneg (w : Word) : isZero (fneg w) = isZero w := by
  rw [Bool.eq_iff_iff]; simp [isZero_iff]
@[simp] theorem isZero_fabs (w : Word) : isZero (fabs w) = isZero w := by
  rw [Bool.eq_iff_iff]; simp [isZero_iff]
@[simp] theorem isInf_fneg (w : Word) : isInf (fneg w) = isInf w := by
  rw [Bool.eq_iff_iff]; simp [isInf_iff]
@[simp] theorem isInf_fabs (w : Word) : isInf (fabs w) = isInf w := by
  rw [Bool.eq_iff_iff]; simp [isInf_iff]

/-! ### Values -/

theorem value_of_signBit_false {w : Word} (h : signBit w = false) : value w = magnitude w := by
  simp [value, h]

theorem value_of_signBit_true {w : Word} (h : signBit w = true) : value w = -magnitude w := by
  simp [value, h]

@[simp] theorem value_natAbs (w : Word) : (value w).natAbs = magnitude w := by
  unfold value
  split <;> simp

theorem value_eq_zero_iff (w : Word) : value w = 0 ↔ magnitude w = 0 := by
  rw [← Int.natAbs_eq_zero, value_natAbs]

@[simp] theorem value_fneg (w : Word) : value (fneg w) = -value w := by
  cases h : signBit w <;> simp [value, h]

@[simp] theorem value_fabs (w : Word) : value (fabs w) = magnitude w := by
  simp [value]

theorem signOf_value {w : Word} (h : value w ≠ 0) : signOf (value w) = signBit w := by
  have hm : magnitude w ≠ 0 := fun c => h ((value_eq_zero_iff w).2 c)
  cases hs : signBit w
  · rw [value_of_signBit_false hs]; simp [signOf]
  · rw [value_of_signBit_true hs]; simp [signOf]; omega

/-- Two finite words of the same nonzero value are the same word: only the zeros share one (R81). -/
theorem eq_of_value_eq {v w : Word} (hv : isFinite v = true) (hw : isFinite w = true) (h : value v = value w)
    (h0 : value w ≠ 0) : v = w := by
  have hs : signBit v = signBit w := by rw [← signOf_value h0, ← h, signOf_value (h ▸ h0)]
  have hm : magnitude v = magnitude w := by rw [← value_natAbs, h, value_natAbs]
  rw [← ofMagnitude_magnitude hv, ← ofMagnitude_magnitude hw, hs, hm]

/-! ### Exact additions -/

/-- The sum of two finite words is rounded from the exact sum (R85). -/
theorem fadd_of_isFinite (p : Params) {a b : Word} (ha : isFinite a = true) (hb : isFinite b = true)
    (h : value a + value b ≠ 0) :
    fadd p a b = round32 p.rounding (signOf (value a + value b)) (value a + value b).natAbs 1 := by
  simp [fadd, isNaN_of_isFinite ha, isNaN_of_isFinite hb, isInf_of_isFinite ha, isInf_of_isFinite hb, h]

/-- A sum that is the value of a finite word is that word: nothing is rounded (R84, R85). -/
theorem fadd_exact {p : Params} (hp : p.rounding = tiesToEven) {a b c : Word} (ha : isFinite a = true)
    (hb : isFinite b = true) (hc : isFinite c = true) (h : value a + value b = value c) (h0 : value c ≠ 0) :
    fadd p a b = c := by
  rw [fadd_of_isFinite p ha hb (h ▸ h0), hp, h, signOf_value h0, value_natAbs, round32_of_isFinite hc]

/-! ### The parameters of the machine -/

@[simp] theorem params_rounding : params.rounding = tiesToEven := rfl
@[simp] theorem params_cnan : params.cnan = CNAN := rfl
@[simp] theorem params_fused : params.fused = false := rfl

/-! ### A multiply followed by an add is two roundings in a unit without fusion (R93) -/

theorem addProduct_of_not_fused {p : Params} (h : p.fused = false) (c x y : Word) :
    addProduct p c x y = fadd p c (fmul p x y) := by simp [addProduct, h]
theorem productAdd_of_not_fused {p : Params} (h : p.fused = false) (x y c : Word) :
    productAdd p x y c = fadd p (fmul p x y) c := by simp [productAdd, h]
theorem subProduct_of_not_fused {p : Params} (h : p.fused = false) (c x y : Word) :
    subProduct p c x y = fsub p c (fmul p x y) := by simp [subProduct, h]

@[simp] theorem addProduct_params (c x y : Word) : addProduct params c x y = fadd params c (fmul params x y) := rfl
@[simp] theorem productAdd_params (x y c : Word) : productAdd params x y c = fadd params (fmul params x y) c := rfl
@[simp] theorem subProduct_params (c x y : Word) : subProduct params c x y = fsub params c (fmul params x y) := rfl

end Sys2Proof.Machine
end

