-- ==== Sys2Proof/Tests/Slice0.lean ====
section
/-! SUPPORT. The model's own tests. Every expected word is written in the spec: the encodings of R61 and R64, the
vectors and scenarios of 95_test_vectors.md, or a word computed by hand from the rule cited. The witnesses at the
end show states and operands that meet the hypotheses of the statements. -/

namespace Sys2Proof.Tests

open Sys2Proof Sys2Proof.Machine Sys2Proof.Config Sys2Proof.Safety

set_option Elab.async false

/-! ### What well-formedness refuses (R65, R67) -/

theorem test_wellFormed_refuses_family0_end : Command.wellFormed ⟨0x09#8, 0#32, 0#32⟩ = false := by decide
theorem test_wellFormed_refuses_family1_end : Command.wellFormed ⟨0x17#8, 0#32, 0#32⟩ = false := by decide
theorem test_wellFormed_refuses_family2_end : Command.wellFormed ⟨0x23#8, 0#32, 0#32⟩ = false := by decide
theorem test_wellFormed_refuses_family3_end : Command.wellFormed ⟨0x33#8, 0#32, 0#32⟩ = false := by decide
theorem test_wellFormed_refuses_family4_end : Command.wellFormed ⟨0x44#8, 0#32, 0#32⟩ = false := by decide
theorem test_wellFormed_refuses_family5_end : Command.wellFormed ⟨0x56#8, 0#32, 0#32⟩ = false := by decide
theorem test_wellFormed_refuses_last_code : Command.wellFormed ⟨0xFF#8, 0#32, 0#32⟩ = false := by decide
theorem test_wellFormed_accepts_last_codes :
    ([0x08#8, 0x16#8, 0x22#8, 0x32#8, 0x43#8, 0x55#8].all fun op => Command.wellFormed ⟨op, 0#32, 0#32⟩) = true := by
  decide
/-- R65: 32 codes are legal and 224 are not. -/
theorem test_wellFormed_count : ((List.range 256).filter fun n => OpCode.legal (BitVec.ofNat 8 n)).length = 32 := by
  decide +kernel
theorem test_script_refuses_unknown_name : ScriptLine.wellFormed ⟨none, "ADD", .nan, some .nan⟩ = false := by decide
theorem test_script_refuses_missing_operand : ScriptLine.wellFormed ⟨none, "ATAN2", .nan, none⟩ = false := by decide
theorem test_script_refuses_extra_operand : ScriptLine.wellFormed ⟨none, "SIN", .nan, some .nan⟩ = false := by decide
theorem test_script_refuses_lower_case : ScriptLine.wellFormed ⟨none, "sin", .nan, none⟩ = false := by decide

/-! ### Words written out from R61 and R64, one for every constructor -/

theorem test_decode_family0 :
    decode 0x00_BFC00000_80000001#72 = .ok (.pass 0xBFC00000#32) ∧
    decode 0x01_BFC00000_80000001#72 = .ok (.getsign 0xBFC00000#32) ∧
    decode 0x02_BFC00000_80000001#72 = .ok (.getexp 0xBFC00000#32) ∧
    decode 0x03_BFC00000_80000001#72 = .ok (.getexpv 0xBFC00000#32) ∧
    decode 0x04_BFC00000_80000001#72 = .ok (.getmant 0xBFC00000#32) ∧
    decode 0x05_BFC00000_80000001#72 = .ok (.setsign 0xBFC00000#32 0x80000001#32) ∧
    decode 0x06_BFC00000_80000001#72 = .ok (.setexp 0xBFC00000#32 0x80000001#32) ∧
    decode 0x07_BFC00000_80000001#72 = .ok (.setmant 0xBFC00000#32 0x80000001#32) ∧
    decode 0x08_BFC00000_80000001#72 = .ok (.norm12 0xBFC00000#32) := by decide +kernel
theorem test_decode_family1 :
    decode 0x10_BFC00000_80000001#72 = .ok (.abs 0xBFC00000#32) ∧
    decode 0x11_BFC00000_80000001#72 = .ok (.copysign 0xBFC00000#32 0x80000001#32) ∧
    decode 0x12_BFC00000_80000001#72 = .ok (.floor 0xBFC00000#32) ∧
    decode 0x13_BFC00000_80000001#72 = .ok (.ceil 0xBFC00000#32) ∧
    decode 0x14_BFC00000_80000001#72 = .ok (.trunc 0xBFC00000#32) ∧
    decode 0x15_BFC00000_80000001#72 = .ok (.round 0xBFC00000#32) ∧
    decode 0x16_BFC00000_80000001#72 = .ok (.fract 0xBFC00000#32) := by decide +kernel
theorem test_decode_family2 :
    decode 0x20_BFC00000_80000001#72 = .ok (.invsqrt 0xBFC00000#32) ∧
    decode 0x21_BFC00000_80000001#72 = .ok (.sqrt 0xBFC00000#32) ∧
    decode 0x22_BFC00000_80000001#72 = .ok (.inv 0xBFC00000#32) := by decide +kernel
theorem test_decode_family3 :
    decode 0x30_BFC00000_80000001#72 = .ok (.cos 0xBFC00000#32) ∧
    decode 0x31_BFC00000_80000001#72 = .ok (.sin 0xBFC00000#32) ∧
    decode 0x32_BFC00000_80000001#72 = .ok (.tan 0xBFC00000#32) := by decide +kernel
theorem test_decode_family4 :
    decode 0x40_BFC00000_80000001#72 = .ok (.atan 0xBFC00000#32) ∧
    decode 0x41_BFC00000_80000001#72 = .ok (.atannorm 0xBFC00000#32) ∧
    decode 0x42_BFC00000_80000001#72 = .ok (.atan2 0xBFC00000#32 0x80000001#32) ∧
    decode 0x43_BFC00000_80000001#72 = .ok (.atan2norm 0xBFC00000#32 0x80000001#32) := by decide +kernel
theorem test_decode_family5 :
    decode 0x50_BFC00000_80000001#72 = .ok (.ln 0xBFC00000#32) ∧
    decode 0x51_BFC00000_80000001#72 = .ok (.exp 0xBFC00000#32) ∧
    decode 0x52_BFC00000_80000001#72 = .ok (.log2 0xBFC00000#32) ∧
    decode 0x53_BFC00000_80000001#72 = .ok (.log10 0xBFC00000#32) ∧
    decode 0x54_BFC00000_80000001#72 = .ok (.log 0xBFC00000#32 0x80000001#32) ∧
    decode 0x55_BFC00000_80000001#72 = .ok (.powf 0xBFC00000#32 0x80000001#32) := by decide +kernel
/-- The same reading with the table's numbering of the bits; the bits at and above `nbits` are zero. -/
theorem test_decodeTableWord :
    decodeTableWord 72 0x06_3FC00000_00000081 = some (.setexp 0x3FC00000#32 0x00000081#32) ∧
    decodeTableWord 72 0xFF_06_3FC00000_00000081 = some (.setexp 0x3FC00000#32 0x00000081#32) ∧
    decodeTableWord 64 0x06_3FC00000_00000081 = some (.pass 0x3FC00000#32) ∧
    decodeTableWord 72 0x24_40000000_00000000 = none := by decide +kernel
/-- R65: an undefined code is rejected by name. -/
theorem test_decode_rejects_by_name :
    decode 0x24_40000000_00000000#72 = .error (.illegalOpCode 0x24#8) := by decide +kernel
/-- R67: the command word of `ATAN2 3.0, 4.0`. -/
theorem test_encode_atan2 : encode (.atan2 0x40400000#32 0x40800000#32) = 0x42_40400000_40800000#72 := by
  decide +kernel
/-- R61's layout with a code of 16 bits (R5, D3; log 22): every bit of the code counts. -/
theorem test_decode_wider_code :
    decodeAt (opW := 16) 0x0006_3FC00000_00000081#80 = .ok (.setexp 0x3FC00000#32 0x00000081#32) ∧
    decodeAt (opW := 16) 0x0106_3FC00000_00000081#80 = .error (.illegalOpCode 0x0106#16) := by decide +kernel
/-- One step of a unit with codes of 16 bits (R5, R130; log 22). -/
theorem test_step_wider_code :
    (nextBy (execWith params) 1
      (⟨[], [PortIn.offer ⟨0x0010#16, 0xBFC00000#32, 0#32⟩], [], 0⟩ : State 16)).q = [⟨0x3FC00000#32, false⟩] := by
  decide +kernel

/-! ### Results: one step that accepts the word, at most two for each instruction (95_test_vectors.md part 2) -/

/-- The queue after one step from reset, in a unit that may hold one command, that is offered the word `w`. -/
def answerTo (w : CommandWord) : List Response := (nextBy exec 1 (State.reset.offerAt 1 w)).q

theorem test_pass_signalling_nan : answerTo 0x00_7FA00001_00000000#72 = [⟨0x7FA00001#32, false⟩] := by decide +kernel
theorem test_pass_negative_zero : answerTo 0x00_80000000_00000000#72 = [⟨0x80000000#32, false⟩] := by decide +kernel
theorem test_getsign_negative_zero : answerTo 0x01_80000000_00000000#72 = [⟨0x00000001#32, false⟩] := by decide +kernel
theorem test_getsign_nan : answerTo 0x01_7FC00000_00000000#72 = [⟨0x00000000#32, false⟩] := by decide +kernel
theorem test_getexp_negative_inf : answerTo 0x02_FF800000_00000000#72 = [⟨0x000000FF#32, false⟩] := by decide +kernel
theorem test_getexp_one : answerTo 0x02_3F800000_00000000#72 = [⟨0x0000007F#32, false⟩] := by decide +kernel
theorem test_getexpv_half : answerTo 0x03_3F000000_00000000#72 = [⟨0xFFFFFFFF#32, false⟩] := by decide +kernel
theorem test_getexpv_zero : answerTo 0x03_00000000_00000000#72 = [⟨0xFFFFFF81#32, false⟩] := by decide +kernel
theorem test_getmant_all_ones : answerTo 0x04_7FFFFFFF_00000000#72 = [⟨0x007FFFFF#32, false⟩] := by decide +kernel
theorem test_getmant_three_halves : answerTo 0x04_3FC00000_00000000#72 = [⟨0x00400000#32, false⟩] := by decide +kernel
theorem test_setsign_reads_bit_0_only : answerTo 0x05_BFC00000_FFFFFFFE#72 = [⟨0x3FC00000#32, false⟩] := by decide +kernel
theorem test_setsign_of_nan : answerTo 0x05_7FC00001_00000001#72 = [⟨0xFFC00001#32, false⟩] := by decide +kernel
theorem test_setexp_reads_low_byte_only : answerTo 0x06_3FC00000_FFFFFF7F#72 = [⟨0x3FC00000#32, false⟩] := by decide +kernel
theorem test_setexp_negative : answerTo 0x06_BFC00000_00000000#72 = [⟨0x80400000#32, false⟩] := by decide +kernel
theorem test_setmant_reads_low_bits_only : answerTo 0x07_40000000_FF800000#72 = [⟨0x40000000#32, false⟩] := by decide +kernel
theorem test_setmant_of_inf : answerTo 0x07_7F800000_00000001#72 = [⟨0x7F800001#32, false⟩] := by decide +kernel
theorem test_norm12_keeps_sign : answerTo 0x08_C1200000_00000000#72 = [⟨0xBFA00000#32, false⟩] := by decide +kernel
theorem test_norm12_nan : answerTo 0x08_7FC00000_00000000#72 = [⟨0x3FC00000#32, false⟩] := by decide +kernel
theorem test_abs_nan_payload : answerTo 0x10_FFC00001_00000000#72 = [⟨0x7FC00001#32, false⟩] := by decide +kernel
theorem test_abs_negative_zero : answerTo 0x10_80000000_00000000#72 = [⟨0x00000000#32, false⟩] := by decide +kernel
theorem test_copysign_of_negative_zero : answerTo 0x11_40400000_80000000#72 = [⟨0xC0400000#32, false⟩] := by decide +kernel
theorem test_copysign_takes_magnitude_of_a : answerTo 0x11_C0400000_3F800000#72 = [⟨0x40400000#32, false⟩] := by decide +kernel
theorem test_floor_negative : answerTo 0x12_BFC00000_00000000#72 = [⟨0xC0000000#32, false⟩] := by decide +kernel
theorem test_floor_below_two_to_23 : answerTo 0x12_CAFFFFFF_00000000#72 = [⟨0xCB000000#32, false⟩] := by decide +kernel
theorem test_ceil_negative_fraction : answerTo 0x13_BF000000_00000000#72 = [⟨0x80000000#32, false⟩] := by decide +kernel
theorem test_ceil_smallest_subnormal : answerTo 0x13_00000001_00000000#72 = [⟨0x3F800000#32, false⟩] := by decide +kernel
theorem test_trunc_negative : answerTo 0x14_BFC00000_00000000#72 = [⟨0xBF800000#32, false⟩] := by decide +kernel
theorem test_trunc_below_two_to_23 : answerTo 0x14_4AFFFFFF_00000000#72 = [⟨0x4AFFFFFE#32, false⟩] := by decide +kernel
theorem test_round_half_away : answerTo 0x15_C0200000_00000000#72 = [⟨0xC0400000#32, false⟩] := by decide +kernel
theorem test_round_below_half : answerTo 0x15_3EFFFFFF_00000000#72 = [⟨0x00000000#32, false⟩] := by decide +kernel
theorem test_fract_negative : answerTo 0x16_BFC00000_00000000#72 = [⟨0xBF000000#32, false⟩] := by decide +kernel
theorem test_fract_inf : answerTo 0x16_7F800000_00000000#72 = [⟨0x7FC00000#32, false⟩] := by decide +kernel
theorem test_invsqrt_four : answerTo 0x20_40800000_00000000#72 = [⟨0x3EFF911F#32, false⟩] := by decide +kernel
theorem test_invsqrt_wraps : answerTo 0x20_80000000_00000000#72 = [⟨0x1F8983E4#32, false⟩] := by decide +kernel
theorem test_sqrt_two : answerTo 0x21_40000000_00000000#72 = [⟨0x3FB4F957#32, false⟩] := by decide +kernel
theorem test_sqrt_negative_one : answerTo 0x21_BF800000_00000000#72 = [⟨0x7F800000#32, false⟩] := by decide +kernel
theorem test_inv_hundred : answerTo 0x22_42C80000_00000000#72 = [⟨0x3C2354EB#32, false⟩] := by decide +kernel
theorem test_inv_largest : answerTo 0x22_7F7FFFFF_00000000#72 = [⟨0x001FE44E#32, false⟩] := by decide +kernel
theorem test_cos_one : answerTo 0x30_3F800000_00000000#72 = [⟨0x3F0A5D25#32, false⟩] := by decide +kernel
theorem test_cos_thousand : answerTo 0x30_447A0000_00000000#72 = [⟨0x3F100BE6#32, false⟩] := by decide +kernel
theorem test_sin_ignores_b : answerTo 0x31_3F800000_DEADBEEF#72 = [⟨0x3F57984F#32, false⟩] := by decide +kernel
theorem test_sin_pi : answerTo 0x31_40490FDB_00000000#72 = [⟨0x00000000#32, false⟩] := by decide +kernel
theorem test_tan_one : answerTo 0x32_3F800000_00000000#72 = [⟨0x3FC7723F#32, false⟩] := by decide +kernel
theorem test_tan_at_a_pole : answerTo 0x32_BFC90FDB_00000000#72 = [⟨0xFF800000#32, false⟩] := by decide +kernel
theorem test_atan_two : answerTo 0x40_C0000000_00000000#72 = [⟨0xBF8D5EBC#32, false⟩] := by decide +kernel
theorem test_atan_subnormal : answerTo 0x40_00000001_00000000#72 = [⟨0x00000002#32, false⟩] := by decide +kernel
theorem test_atannorm_half : answerTo 0x41_3F000000_00000000#72 = [⟨0x3E98010E#32, false⟩] := by decide +kernel
theorem test_atannorm_negative_zero : answerTo 0x41_80000000_00000000#72 = [⟨0x80000000#32, false⟩] := by decide +kernel
theorem test_atan2_third_quadrant : answerTo 0x42_BF800000_BF800000#72 = [⟨0xC016CBE4#32, false⟩] := by decide +kernel
theorem test_atan2_operand_order : answerTo 0x42_40400000_40800000#72 = [⟨0x3F25420B#32, false⟩] := by decide +kernel
theorem test_atan2norm_operand_order : answerTo 0x43_40800000_40400000#72 = [⟨0x3F16CB23#32, false⟩] := by decide +kernel
theorem test_atan2norm_four_becomes_zero : answerTo 0x43_8DA24260_3F800000#72 = [⟨0x00000000#32, false⟩] := by decide +kernel
theorem test_ln_ten : answerTo 0x50_41200000_00000000#72 = [⟨0x40135E44#32, false⟩] := by decide +kernel
theorem test_ln_subnormal : answerTo 0x50_007FFFFF_00000000#72 = [⟨0xC2AEAC58#32, false⟩] := by decide +kernel
theorem test_exp_one : answerTo 0x51_3F800000_00000000#72 = [⟨0x402DF78C#32, false⟩] := by decide +kernel
theorem test_exp_flushes : answerTo 0x51_C2AEAC51_00000000#72 = [⟨0x00000000#32, false⟩] := by decide +kernel
theorem test_log2_eight : answerTo 0x52_41000000_00000000#72 = [⟨0x4040016E#32, false⟩] := by decide +kernel
theorem test_log2_zero : answerTo 0x52_80000000_00000000#72 = [⟨0xFF800000#32, false⟩] := by decide +kernel
theorem test_log10_thousand : answerTo 0x53_447A0000_00000000#72 = [⟨0x40400037#32, false⟩] := by decide +kernel
theorem test_log10_half : answerTo 0x53_3F000000_00000000#72 = [⟨0xBE9A1D28#32, false⟩] := by decide +kernel
theorem test_log_operand_order : answerTo 0x54_40000000_41000000#72 = [⟨0x3EAAAD36#32, false⟩] := by decide +kernel
theorem test_log_base_zero : answerTo 0x54_41000000_00000000#72 = [⟨0x80000000#32, false⟩] := by decide +kernel
theorem test_powf_two_to_ten : answerTo 0x55_40000000_41200000#72 = [⟨0x448013D9#32, false⟩] := by decide +kernel
theorem test_powf_negative_base : answerTo 0x55_C0000000_40000000#72 = [⟨0x7FC00000#32, false⟩] := by decide +kernel

/-- R93, D8: `(1 + 2^-23)^2 - (1 + 2^-22)` is `2^-46` exactly; with two roundings the product loses it, fused it
stays (by hand; log 21). -/
theorem test_fused_parameter :
    addProduct params 0xBF800002#32 0x3F800001#32 0x3F800001#32 = 0x00000000#32 ∧
    addProduct { params with fused := true } 0xBF800002#32 0x3F800001#32 0x3F800001#32 = 0x28800000#32 := by
  decide +kernel
/-- R93, D8: the signs of an exact zero, and an infinity against the opposite one, fused (by hand; log 21). -/
theorem test_fused_special_cases :
    fma { params with fused := true } 0x80000000#32 0x3F800000#32 0x80000000#32 = 0x80000000#32 ∧
    fma { params with fused := true } 0xBF800000#32 0x3F800000#32 0x3F800000#32 = 0x00000000#32 ∧
    fma { params with fused := true } 0x7F800000#32 0x3F800000#32 0xFF800000#32 = 0x7FC00000#32 := by decide +kernel

/-- R65: an undefined code is answered with the canonical NaN and `ill = 1`. -/
theorem test_illegal_is_answered : answerTo 0x60_12345678_9ABCDEF0#72 = [⟨0x7FC00000#32, true⟩] := by decide +kernel
/-- R161's remark that `COS` lies in [-1, 1] for finite words fails here under its own pseudocode: about -4.35
(log 17). The word is the reviewer's finding, computed with the spec's evaluator. -/
theorem test_cos_outside_the_unit_interval : answerTo 0x30_CBC90FDC_00000000#72 = [⟨0xC08B3333#32, false⟩] := by
  decide +kernel
/-- 95_test_vectors.md 2.6: the parameter `EXP_TERMS` changes the words. -/
theorem test_exp_terms : opExp { params with expTerms := 3 } 0x3F800000#32 = 0x402DEB71#32 ∧
    opExp { params with expTerms := 6 } 0x3F800000#32 = 0x402DF854#32 := by decide +kernel

/-! ### The arithmetic primitives (95_test_vectors.md 2.8) -/

theorem test_fadd_ties_to_even : fadd params 0x3F800000#32 0x33800000#32 = 0x3F800000#32 ∧
    fadd params 0x3F800001#32 0x33800000#32 = 0x3F800002#32 := by decide +kernel
theorem test_fadd_overflow_tie : fadd params 0x7F7FFFFF#32 0x73000000#32 = 0x7F800000#32 ∧
    fadd params 0x7F7FFFFF#32 0x72FFFFFF#32 = 0x7F7FFFFF#32 := by decide +kernel
theorem test_fadd_zeros : fadd params 0#32 0x80000000#32 = 0#32 ∧
    fadd params 0x80000000#32 0x80000000#32 = 0x80000000#32 := by decide +kernel
theorem test_fsub_cancels : fsub params 0xC0490FDB#32 0xC0490FDB#32 = 0#32 ∧
    fsub params 0x00800000#32 0x007FFFFF#32 = 1#32 := by decide +kernel
theorem test_fmul_underflow : fmul params 0x00000003#32 0x3F000000#32 = 2#32 ∧
    fmul params 0x80000001#32 0x3F000000#32 = 0x80000000#32 := by decide +kernel
theorem test_fdiv : fdiv params 0x3F800000#32 0x40400000#32 = 0x3EAAAAAB#32 ∧
    fdiv params 0x3F800000#32 0x80000000#32 = 0xFF800000#32 ∧
    fdiv params 0x3F800000#32 0x7F7FFFFF#32 = 0x00200000#32 := by decide +kernel
/-- R5, R23: another rounding and another NaN are other parameters; toward zero, the tie above 1 rounds down. -/
theorem test_parameters_are_arguments :
    fadd { params with rounding := fun _ N D => N / D } 0x3F800001#32 0x33800000#32 = 0x3F800001#32 ∧
    fadd { params with cnan := 0xFFFFFFFF#32 } 0x7F800001#32 0x3F800000#32 = 0xFFFFFFFF#32 := by decide +kernel
theorem test_comparisons : flt 0x80000000#32 0#32 = false ∧ feq 0x80000000#32 0#32 = true ∧
    fle 0x7FC00000#32 0x7FC00000#32 = false ∧ flt 0xFF800000#32 0xFF7FFFFF#32 = true := by decide +kernel
theorem test_i2f : i2f params 3 = 0x40400000#32 ∧ i2f params (-127) = 0xC2FE0000#32 ∧ i2f params 0 = 0#32 := by decide +kernel

/-! ### Steps at the ports (95_test_vectors.md 2.7, scenarios S1, S2, S4) -/

/-- A state whose queue is `q` and whose host drives `i` in the next step and the idle ports after it. -/
def stateWith (q : List Response) (i : PortIn) : State := ⟨q, [i], [], 0⟩

/-- S1, the second ACCEPT: the illegal command is queued behind its neighbour. -/
theorem test_s1_accept_illegal :
    (nextBy exec 2 (stateWith [⟨0x3F57984F#32, false⟩] (PortIn.offer ⟨0x09#8, 0x12345678#32, 0x9ABCDEF0#32⟩))).q =
      [⟨0x3F57984F#32, false⟩, ⟨0x7FC00000#32, true⟩] := by decide +kernel
/-- S1: the full queue is not ready. -/
theorem test_s1_full_is_not_ready :
    ((stateWith [⟨0x3F57984F#32, false⟩, ⟨0x7FC00000#32, true⟩] PortIn.idle).portOutAt 2).cmdReady = false := by
  decide +kernel
/-- S1, the first DELIVER. -/
theorem test_s1_deliver :
    (nextBy exec 2 (stateWith [⟨0x3F57984F#32, false⟩, ⟨0x7FC00000#32, true⟩] PortIn.take)).q = [⟨0x7FC00000#32, true⟩] ∧
    (nextBy exec 2 (stateWith [⟨0x3F57984F#32, false⟩, ⟨0x7FC00000#32, true⟩] PortIn.take)).observed =
      [⟨0x3F57984F#32, false⟩] := by decide +kernel
/-- S2: reset drops the commands in flight, even if the host offers a command and takes a response. -/
theorem test_s2_reset :
    nextBy exec 2 (stateWith [⟨0x40135E44#32, false⟩] ⟨true, true, 0x10#8, 0xBFC00000#32, 0#32, true⟩) =
      ⟨[], [], [], 1⟩ := by decide +kernel
/-- S4: a full unit holds its response while the host does not take it. -/
theorem test_s4_back_pressure :
    (nextBy exec 1 (stateWith [⟨0xC0000000#32, false⟩] (PortIn.offer ⟨0x00#8, 0#32, 0#32⟩))).q =
      [⟨0xC0000000#32, false⟩] := by decide +kernel
/-- R213 (c): ACCEPT and DELIVER in one step; the response to the new command goes behind the one delivered. -/
theorem test_accept_and_deliver_together :
    nextBy exec 2 (stateWith [⟨1#32, false⟩] ⟨false, true, 0x10#8, 0xBFC00000#32, 0#32, true⟩) =
      ⟨[⟨0x3FC00000#32, false⟩], [], [⟨1#32, false⟩], 1⟩ := by decide +kernel
/-- The word that `withFetchWord` places is run by the very next step from reset, whatever `QDEPTH` is. -/
theorem test_withFetchWord_runs :
    step (State.reset.withFetchWord 72 0x10_BFC00000_00000000) =
      .next ⟨[⟨0x3FC00000#32, false⟩], [], [], 1⟩ := by
  have h : (State.reset.withFetchWord 72 0x10_BFC00000_00000000).acceptsAt qdepth = true := by
    simp [State.withFetchWord, State.offerAt, State.acceptsAt, State.cmdReadyAt, State.portIn, State.reset,
      PortIn.offering, qdepth]
  unfold step stepBy
  rw [if_neg (by simp [State.withFetchWord, State.offerAt, State.portIn, PortIn.offering]), if_pos h]
  rfl

/-! ### Script lines (R67, R68; 95_test_vectors.md part 3) -/

theorem test_readLine_operands :
    readLine "%r = ATAN2 3.0, -inf ; the angle" =
      some ⟨some "r", "ATAN2", .decimal false 30 (-1), some .negInf⟩ := by decide +kernel
theorem test_readLine_result_operand :
    readLine "SETEXP %t, 0x82" = some ⟨none, "SETEXP", .result "t", some (.word 0x82#32)⟩ := by decide +kernel
/-- The model's choice, no rule: digits may be missing on one side of a decimal point, not on both (log 16). -/
theorem test_readDecimal_point : readOperand "-.5".toList = some (.decimal true 5 (-1)) ∧
    readOperand "1.".toList = some (.decimal false 1 0) ∧ readOperand ".".toList = none := by decide +kernel
/-- R67: a word literal in either case; a letter is no decimal digit. -/
theorem test_readOperand_digits : readOperand "0xDEADbeef".toList = some (.word 0xDEADBEEF#32) ∧
    readOperand "-2.5e3".toList = some (.decimal true 25 2) ∧ readOperand "0x3G".toList = none ∧
    readOperand "1.a".toList = none := by decide +kernel
/-- R67: a decimal literal means the word nearest to it; `-0.0` means `0x80000000`. -/
theorem test_decimal_literals : decimalWord false 1 (-1) = 0x3DCCCCCD#32 ∧ decimalWord true 0 (-1) = 0x80000000#32 ∧
    decimalWord false 1 30 = 0x7149F2CA#32 := by decide +kernel
/-- Lines 6 to 8 of program P1: `%name` stands for the result of the earlier line. -/
theorem test_script_p1 :
    scriptResponses params [("m", 0x00200000#32), ("e", 0x82#32), ("s", 1#32)]
      [⟨some "t", "SETMANT", .word 0#32, some (.result "m")⟩,
       ⟨some "u", "SETEXP", .result "t", some (.result "e")⟩,
       ⟨some "w", "SETSIGN", .result "u", some (.result "s")⟩] =
      some [⟨0x00200000#32, false⟩, ⟨0x41200000#32, false⟩, ⟨0xC1200000#32, false⟩] := by decide +kernel

/-! ### Witnesses: the hypotheses of the statements can be met -/

/-- The narrowest width, and the machine's. -/
theorem witness_DecodingAnEncodedInstructionGivesItBack : 7 ≤ 7 ∧ 7 ≤ OP_W := by decide

theorem witness_DecodedInstructionKeepsEveryOperandBit :
    (∃ i, decode 0x55_40000000_FFFFFFFF#72 = .ok i) ∧ usesB 0x55#8 = true ∧
    (∃ i, decode 0x00_40000000_FFFFFFFF#72 = .ok i) ∧ usesB 0x00#8 = false :=
  ⟨⟨_, rfl⟩, by decide, ⟨_, rfl⟩, by decide⟩

/-- At the ends of the ranges that R65 lists. -/
theorem witness_ExactlyTheUnlistedCodesAreRejected :
    ([0x09#8, 0x0F#8, 0x17#8, 0x1F#8, 0x23#8, 0x2F#8, 0x33#8, 0x3F#8, 0x44#8, 0x4F#8, 0x56#8, 0xFF#8].all fun op =>
      OpCode.legal op == false) = true ∧
    ([0x00#8, 0x08#8, 0x10#8, 0x16#8, 0x20#8, 0x22#8, 0x30#8, 0x32#8, 0x40#8, 0x43#8, 0x50#8, 0x55#8].all fun op =>
      OpCode.legal op == true) = true := by decide

theorem witness_OneOperandOperationsIgnoreTheSecondOperand :
    usesB 0x31#8 = false ∧ usesB 0xFF#8 = false ∧ (0x00000000#32 ≠ 0xFFFFFFFF#32) := by decide

/-- The first real that rounds to infinity, one unit below it, and a real halfway between `+0` and the smallest
subnormal, where both are as near. -/
theorem witness_RoundingIsToNearestTiesToEven :
    (2 ^ 277 - 2 ^ 252) * 3 ≤ (2 ^ 277 - 2 ^ 252) * 3 ∧
    (2 ^ 277 - 2 ^ 252) * 3 - 1 < (2 ^ 277 - 2 ^ 252) * 3 ∧ isFinite 0x7F7FFFFF#32 = true ∧
    (|(magnitude (round32 params.rounding false 1 2) * 2 : ℤ) - 1| = |(magnitude 0x00000001#32 * 2 : ℤ) - 1| ∧
      magnitude 0x00000001#32 ≠ magnitude (round32 params.rounding false 1 2)) := by
  have h0 : magnitude (round32 params.rounding false 1 2) = 0 := by decide +kernel
  have h1 : magnitude 0x00000001#32 = 1 := by decide +kernel
  rw [h0, h1]
  exact ⟨le_refl _, by decide +kernel, by decide, by norm_num, by norm_num⟩

theorem witness_InvalidOperationsGiveTheCanonicalNaN :
    isNaN 0x7F800001#32 = true ∧
    (isInf 0x7F800000#32 = true ∧ isInf 0xFF800000#32 = true ∧
      signBit 0x7F800000#32 ≠ signBit 0xFF800000#32) ∧
    isZero 0x80000000#32 = true := by decide

theorem witness_SubtractionIsAdditionOfTheNegatedWord :
    isNaN 0xFFFFFFFF#32 = true ∧ isFinite 0xFF7FFFFF#32 = true ∧ isInf 0x7F800000#32 = true := by decide

theorem witness_ComparisonsOrderTheWords :
    isNaN 0x7F800001#32 = true ∧ (isNaN 0x7F800000#32 = false ∧ isNaN 0xFF800000#32 = false) ∧
    (isFinite 0x7F7FFFFF#32 = true ∧ isFinite 0x80000000#32 = true) := by decide

theorem witness_SmallIntegersConvertExactly :
    ((-255 : Int) ≤ -255 ∧ (-255 : Int) ≤ 255) ∧ ((-255 : Int) ≤ 255 ∧ (255 : Int) ≤ 255) := by decide

theorem witness_TruncIsTheIntegerTowardZero :
    isFinite 0xBF7FFFFF#32 = true ∧ NonFinite 0x7F800000#32 := by decide
theorem witness_FloorIsTheLargestIntegerNotAbove :
    isFinite 0xBF7FFFFF#32 = true ∧ value (opFloor params 0x80000000#32) = 0 ∧ NonFinite 0xFF800000#32 := by decide +kernel
theorem witness_CeilIsTheSmallestIntegerNotBelow :
    isFinite 0xBF7FFFFF#32 = true ∧ value (opCeil params 0xBF7FFFFF#32) = 0 ∧ NonFinite 0x7FC00000#32 := by decide +kernel
theorem witness_RoundIsTheNearestIntegerHalfAwayFromZero :
    isFinite 0xBF000000#32 = true ∧ NonFinite 0xFF800000#32 := by decide
theorem witness_FractIsTheExactFractionalPart :
    isFinite 0xC0000000#32 = true ∧ value (opFract params 0xC0000000#32) = 0 ∧ NonFinite 0x7F800000#32 := by decide +kernel
theorem witness_IntegerAndFractionalPartsAddUpExactly :
    isFinite 0xBFC00000#32 = true ∧ isZero 0xBFC00000#32 = false := by decide
theorem witness_RoundingOperationsKeepTheirLaws :
    isFinite 0x4B000000#32 = true ∧ (2 ^ 149 : Int) ∣ value 0x4B000000#32 ∧ isNaN 0x7F800000#32 = false ∧
    isInf 0x7F800000#32 = true := by decide +kernel

/-- The ends of the two ranges of negative words, with -1.0 in the upper one. -/
theorem witness_InverseSquareRootOutsideItsDomain :
    (0xBF6EB50C ≤ (0xBF6EB50C#32).toNat ∧ (0xBF800000#32).toNat ≤ 0xFF800000 ∧ (0xFF800000#32).toNat ≤ 0xFF800000) ∧
    (0xBE6EB50E ≤ (0xBE6EB50E#32).toNat ∧ (0xBF6EB50B#32).toNat ≤ 0xBF6EB50B) ∧ isNaN 0xFFA00001#32 = true := by
  decide

theorem witness_InverseIsNeverNegative : signBit params.cnan = false := by decide
theorem witness_ExponentialIsNeverSubnormal : isNaN params.cnan = true := by decide

/-- The last word that does not wrap and the first that does. -/
theorem witness_MagicSubtractionWrapsFromOneWordOn :
    (0xBE6EB50D#32).toNat < 0xBE6EB50E ∧ 0xBE6EB50E ≤ (0xBE6EB50E#32).toNat := by decide

theorem witness_TrigonometryOfNonFiniteWordsIsNaN :
    NonFinite 0x7F800000#32 ∧ NonFinite 0xFF800000#32 ∧ NonFinite 0x7F800001#32 := by decide
/-- The first word of the region, and the last one, below zero. -/
theorem witness_HugeAnglesCarryNoInformation :
    (isFinite 0x4C490FDB#32 = true ∧ 0x4C490FDB ≤ (fabs 0x4C490FDB#32).toNat) ∧
    (isFinite 0xFF7FFFFF#32 = true ∧ 0x4C490FDB ≤ (fabs 0xFF7FFFFF#32).toNat) := by decide
theorem witness_CosineOfEveryFiniteWordIsInTheUnitInterval : isFinite 0xCBC90FDC#32 = true := by decide

theorem witness_ArctangentIsOddBitForBit : isNaN 0x7F800000#32 = false ∧ isNaN 0x80000000#32 = false := by decide
theorem witness_ArctangentStaysInItsRange : isNaN 0xFF800000#32 = false ∧ isNaN 0xFF800001#32 = true := by decide
/-- A pair in the last quadrant, and one infinity beside a finite word. -/
theorem witness_FourQuadrantAngleStaysInOneTurn :
    (isNaN 0x80000001#32 = false ∧ isNaN 0x3F800000#32 = false ∧
      ¬(isInf 0x80000001#32 = true ∧ isInf 0x3F800000#32 = true)) ∧
    (isNaN 0xFF800000#32 = false ∧ ¬(isInf 0xFF800000#32 = true ∧ isInf 0x3F800000#32 = true)) := by decide
theorem witness_FourQuadrantAngleInRadiansStaysInItsRange :
    (isNaN 0x00000000#32 = false ∧ isNaN 0x80000000#32 = false ∧
      ¬(isInf 0x00000000#32 = true ∧ isInf 0x80000000#32 = true)) ∧
    (isNaN 0xFF800000#32 = false ∧ ¬(isInf 0xBF800000#32 = true ∧ isInf 0xFF800000#32 = true)) := by decide
theorem witness_FourQuadrantAngleAtZerosAndInfinities :
    (isZero 0x80000000#32 = true ∧ isZero 0x00000000#32 = true) ∧
    (isFinite 0x80000001#32 = true ∧ isZero 0x80000001#32 = false ∧ isZero 0x80000000#32 = true) ∧
    (isZero 0x80000000#32 = true ∧ isFinite 0xFF7FFFFF#32 = true ∧ isZero 0xFF7FFFFF#32 = false) ∧
    (isInf 0xFF800000#32 = true ∧ isFinite 0x7F7FFFFF#32 = true) ∧
    (isFinite 0x80000000#32 = true ∧ isInf 0x7F800000#32 = true) ∧ isNaN 0x7F800001#32 = true := by decide

/-- The largest word below zero, -Inf, and the smallest positive word. -/
theorem witness_LogarithmTestsItsOperandThenAddsItsParts :
    isNaN 0x7FC00000#32 = true ∧ isZero 0x80000000#32 = true ∧ Negative 0x80000001#32 ∧ Negative 0xFF800000#32 ∧
    (isFinite 0x00000001#32 = true ∧ isZero 0x00000001#32 = false ∧ signBit 0x00000001#32 = false) := by decide

/-- The exponent field `E2` of R193, as the statement about EXP writes it. -/
def expField (a : Word) : Int :=
  let t := fmul params a 0x3FB8AA3B#32
  let kf := opRound params t
  let rr := fmul params (fsub params t kf) 0x3F317218#32
  let pass : Int → Word → Word := fun i s => fadd params 0x3F800000#32 (fmul params (fdiv params rr (i2f params i)) s)
  let s := pass 1 (pass 2 (pass 3 (pass 4 0x3F800000#32)))
  ((s.toNat / 2 ^ 23 % 2 ^ 8 : Nat) : Int) + value kf / 2 ^ 149

/-- Each case of EXP, with the last word that does not overflow, the first that does, the last word with a nonzero
result and the first that is flushed (95_test_vectors.md 2.6). -/
theorem witness_ExponentialFollowsItsDatapath :
    isNaN 0x7FC00000#32 = true ∧
    (isNaN 0x7F7FFFFF#32 = false ∧ fmul params 0x7F7FFFFF#32 0x3FB8AA3B#32 = 0x7F800000#32) ∧
    (isNaN 0xFF800000#32 = false ∧ fmul params 0xFF800000#32 0x3FB8AA3B#32 = 0xFF800000#32) ∧
    ([0x42B17218#32, 0x42B17217#32, 0xC2AEAC50#32, 0xC2AEAC51#32].all fun a =>
      !isNaN a && fmul params a 0x3FB8AA3B#32 != 0x7F800000#32 && fmul params a 0x3FB8AA3B#32 != 0xFF800000#32) = true ∧
    255 ≤ expField 0x42B17218#32 ∧ (0 < expField 0x42B17217#32 ∧ expField 0x42B17217#32 < 255) ∧
    (0 < expField 0xC2AEAC50#32 ∧ expField 0xC2AEAC50#32 < 255) ∧ expField 0xC2AEAC51#32 ≤ 0 := by decide +kernel

theorem witness_LogarithmsAndPowersOfNegativesAreNaN : Negative 0x80000001#32 ∧ Negative 0xFF800000#32 := by decide
theorem witness_ZeroPowerOfAPositiveWordIsOne :
    (isFinite 0x00000001#32 = true ∧ isZero 0x00000001#32 = false ∧ signBit 0x00000001#32 = false ∧
      isZero 0x80000000#32 = true) := by decide
/-- `2^-25` with either sign, the bound itself. -/
theorem witness_ExponentialOfTinyWordsIsOne : magnitude 0x33000000#32 ≤ 2 ^ 124 ∧ magnitude 0xB3000000#32 ≤ 2 ^ 124 := by
  decide +kernel

theorem witness_FlagReportsOnlyAnUndefinedCode :
    OpCode.legal (Command.mk 0x55#8 0#32 0#32).op = true ∧ OpCode.legal (Command.mk 0x56#8 0#32 0#32).op = false := by
  decide

theorem qdepth_pos : 0 < qdepth := Nat.succ_pos _

/-- An empty unit that is offered `ABS -1.5`, with and without a response taken, and a table word. -/
theorem witness_StepRunsTheOfferedInstruction :
    (∀ ready, ∃ (s : State) (i : Instr), s.portIn.rst = false ∧ s.portIn.cmdValid = true ∧ s.q.length < qdepth ∧
      decodeCommand s.portIn.command = .ok i ∧ s.portIn.rspReady = ready) ∧
    decodeTableWord 72 0x10_BFC00000_00000000 = some (.abs 0xBFC00000#32) :=
  ⟨fun ready => ⟨stateWith [] ⟨false, true, 0x10#8, 0xBFC00000#32, 0#32, ready⟩, _, rfl, rfl, qdepth_pos, rfl, rfl⟩,
    by decide +kernel⟩

theorem witness_IllegalCommandIsAnsweredInTheQueue :
    ∃ s : State, s.portIn.rst = false ∧ s.portIn.cmdValid = true ∧ s.q.length < qdepth ∧
      OpCode.legal s.portIn.cmdOp = false :=
  ⟨stateWith [] (PortIn.offer ⟨0x09#8, 0#32, 0#32⟩), rfl, rfl, qdepth_pos, by decide⟩

/-- A reset with a response in flight, followed by a step without reset. -/
theorem witness_ResetDropsEverythingInFlight :
    ∃ s t : State, s.portIn.rst = true ∧ s.q ≠ [] ∧ step s = .next t ∧ t.portIn.rst = false :=
  ⟨stateWith [⟨1#32, false⟩] ⟨true, true, 0#8, 0#32, 0#32, true⟩, _, rfl, by decide, rfl, rfl⟩

/-- From a full queue, with a flagged response in it. -/
theorem witness_QueueInvariantIsKeptByEveryStep :
    ∃ s t : State, QueueOk qdepth s ∧ s.q.length = qdepth ∧ step s = .next t := by
  refine ⟨stateWith (List.replicate qdepth ⟨CNAN, true⟩) PortIn.idle, ?_⟩
  obtain ⟨_, h⟩ | ⟨_, _, _, h⟩ | ⟨_, _, h⟩ := step_cases (stateWith (List.replicate qdepth ⟨CNAN, true⟩) PortIn.idle)
  all_goals
    refine ⟨_, ⟨?_, ?_⟩, ?_, h⟩
    · simp [stateWith]
    · intro x hx _
      simp only [stateWith, List.mem_replicate] at hx
      rw [hx.2]
    · simp [stateWith]

/-- A full queue that delivers while a command is offered, and an empty one that accepts. -/
theorem witness_QueueMovesByAcceptAndDeliverOnly :
    (∃ s : State, s.portIn.rst = false ∧ (s.portIn.rspReady = true ∧ s.q ≠ []) ∧
      (s.portIn.cmdValid = true ∧ s.q.length = qdepth) ∧ ¬(s.portIn.cmdValid = true ∧ s.q.length < qdepth)) ∧
    (∃ s : State, s.portIn.rst = false ∧ ¬(s.portIn.rspReady = true ∧ s.q ≠ []) ∧
      (s.portIn.cmdValid = true ∧ s.q.length < qdepth)) :=
  ⟨⟨stateWith (List.replicate qdepth ⟨1#32, false⟩) ⟨false, true, 0#8, 0#32, 0#32, true⟩, rfl,
      ⟨rfl, by simp [stateWith, qdepth]⟩, ⟨rfl, by simp [stateWith]⟩, by simp [stateWith]⟩,
    ⟨stateWith [] (PortIn.offer ⟨0#8, 0#32, 0#32⟩), rfl, by decide, rfl, qdepth_pos⟩⟩

theorem witness_FullQueueOnlyPushesBack :
    (∃ s : State, s.portIn.rst = false ∧ qdepth ≤ s.q.length ∧ s.portIn.cmdValid = true ∧
      s.portIn.rspReady = false) ∧
    (∃ s : State, s.portIn.rst = false ∧ s.q = []) :=
  ⟨⟨stateWith (List.replicate qdepth ⟨1#32, false⟩) (PortIn.offer ⟨0#8, 0#32, 0#32⟩), rfl, by simp [stateWith], rfl,
      rfl⟩, ⟨State.reset, rfl, rfl⟩⟩

theorem witness_OfferedResponseIsHeldUntilTaken :
    ∃ s t : State, s.portOut.rspValid = true ∧ s.portIn.rspReady = false ∧ step s = .next t ∧
      t.portIn.rst = false :=
  ⟨stateWith [⟨0xC0000000#32, false⟩] PortIn.idle, _, rfl, rfl, rfl, rfl⟩

theorem witness_ResponsesComeInCommandOrder :
    NoReset 2 (stateWith [] (PortIn.offer ⟨0x10#8, 0xBFC00000#32, 0#32⟩)) ∧
    acceptedBy (execWith params) 1 2 (stateWith [] (PortIn.offer ⟨0x10#8, 0xBFC00000#32, 0#32⟩)) = [⟨0x10#8, 0xBFC00000#32, 0#32⟩] := by
  decide +kernel

/-- One unit of depth 1 and a host that waits for each response; one of depth 2 and a host that does not: both
accept `ABS -1.5` and then the code `0x09`. -/
def patientHost : State :=
  ⟨[], oneAtATime [⟨0x10#8, 0xBFC00000#32, 0#32⟩, ⟨0x09#8, 0#32, 0#32⟩], [], 0⟩

def eagerHost : State :=
  ⟨[], [PortIn.offer ⟨0x10#8, 0xBFC00000#32, 0#32⟩, PortIn.offer ⟨0x09#8, 0#32, 0#32⟩, PortIn.idle, PortIn.take,
    PortIn.take], [], 0⟩

theorem witness_ObservationIgnoresDepthAndTiming :
    NoReset 4 patientHost ∧ NoReset 5 eagerHost ∧ patientHost.q = [] ∧ eagerHost.q = [] ∧
    patientHost.observed = eagerHost.observed ∧
    (runBy (execWith params) 1 4 patientHost).q = [] ∧ (runBy (execWith params) 2 5 eagerHost).q = [] ∧
    acceptedBy (execWith params) 1 4 patientHost = acceptedBy (execWith params) 2 5 eagerHost ∧ (acceptedBy (execWith params) 1 4 patientHost).length = 2 := by
  decide +kernel

/-- The host has no further command, but still takes a response and resets the unit. -/
theorem witness_FinishedRunIsOver :
    ∃ s t : State, Finished s ∧ s.host ≠ [] ∧ step s = .next t :=
  ⟨⟨[], [PortIn.take, ⟨true, false, 0#8, 0#32, 0#32, true⟩], [], 0⟩, _, by decide, by decide, rfl⟩

theorem witness_PatientHostIsAnsweredCommandByCommand :
    patientHost.q = [] ∧ patientHost.host = oneAtATime [⟨0x10#8, 0xBFC00000#32, 0#32⟩, ⟨0x09#8, 0#32, 0#32⟩] :=
  ⟨rfl, rfl⟩

theorem witness_PseudoInstructionsArePass : operandWord [("t", 7#32)] (.result "t") = some 7#32 := by decide

theorem witness_ScriptLinesGiveLegalCommands :
    lineCommand [] ⟨none, "SIN", .inf, none⟩ = some ⟨0x31#8, 0x7F800000#32, 0#32⟩ ∧
    lineCommand [] ⟨none, "POWF", .nan, some (.word 1#32)⟩ = some ⟨0x55#8, 0x7FC00000#32, 1#32⟩ := by decide +kernel


end Sys2Proof.Tests
end

/-! PROOFS of the statements of `00_scope.md`. -/
section
open Sys2Proof Sys2Proof.Machine Sys2Proof.Config

/-- Settles O44: `exec` is the executor of the unit built with the default parameters (`exec_eq_execWith`, one case
per instruction), and such a unit answers every command, defined or not, with `respond` (`accept_execWith`). -/
theorem responseDependsOnTheCommandAlone : Obligations.ResponseDependsOnTheCommandAlone := by
  intro c s
  calc accept exec c s
      _ = accept (execWith params) c s := by rw [exec_eq_execWith]
      _ = .next (s.push (respond params c)) := accept_execWith params c s

end

/-! PROOFS of the statements of `10_state.md`: the handshakes, one step without reset, and runs (R26, R30, R60,
R230). -/
section
namespace Sys2Proof.Machine

open Sys2Proof.Config Sys2Proof.Safety

variable {opW : Nat}

/-! ### The handshakes of a step without reset -/

/-- ACCEPT needs a command on the ports and room in `Q` (R60). -/
theorem State.acceptsAt_iff {s : State opW} (hrst : s.portIn.rst = false) (depth : Nat) :
    s.acceptsAt depth = true ↔ s.portIn.cmdValid = true ∧ s.q.length < depth := by
  simp [State.acceptsAt, State.cmdReadyAt, hrst]

/-- DELIVER needs a ready host and a response in `Q` (R60). -/
theorem State.delivers_iff {s : State opW} (hrst : s.portIn.rst = false) :
    s.delivers = true ↔ s.portIn.rspReady = true ∧ s.q ≠ [] := by
  simp [State.delivers, State.rspValid, hrst]

/-- A delivery from an empty queue does nothing. -/
theorem State.deliver_of_q_nil {s : State opW} (hq : s.q = []) : s.deliver = s := by
  unfold State.deliver
  rw [hq]

/-- To a host that is ready the head of `Q`, if there is one, is delivered. -/
theorem State.afterDeliver_of_rspReady {s : State opW} (hrst : s.portIn.rst = false)
    (hready : s.portIn.rspReady = true) : s.afterDeliver = s.nextInputs.deliver := by
  unfold State.afterDeliver
  split
  · rfl
  · next hno =>
    have hq : s.nextInputs.q = [] := by
      by_contra hne
      exact hno ((State.delivers_iff hrst).2 ⟨hready, hne⟩)
    rw [State.deliver_of_q_nil hq]

/-- To a host that is not ready nothing is delivered. -/
theorem State.afterDeliver_of_not_rspReady {s : State opW} (hready : s.portIn.rspReady = false) :
    s.afterDeliver = s.nextInputs := by
  simp [State.afterDeliver, State.delivers, hready]

/-- From an empty queue nothing is delivered. -/
theorem State.afterDeliver_of_q_nil {s : State opW} (hq : s.q = []) : s.afterDeliver = s.nextInputs := by
  simp [State.afterDeliver, State.delivers, State.rspValid, hq]

/-! ### What the host drives -/

/-- What is on the input ports comes from the host's list, or the ports are idle (log 3). -/
theorem State.portIn_mem_or_idle (s : State opW) : s.portIn ∈ s.host ∨ s.portIn = PortIn.idle := by
  unfold State.portIn
  cases s.host <;> simp

/-- A host with no further command offers none in this step. -/
theorem State.cmdValid_of_finished {s : State} (h : Finished s) : s.portIn.cmdValid = false := by
  obtain hmem | hidle := s.portIn_mem_or_idle
  · exact h.1 _ hmem
  · rw [hidle]; rfl

/-- The first of the steps without reset has `rst = 0`. -/
theorem rst_of_noReset {k : Nat} {s : State} (h : NoReset (k + 1) s) : s.portIn.rst = false := by
  unfold State.portIn
  cases hh : s.host with
  | nil => rfl
  | cons i is => exact h i (by simp [hh])

/-- The host's inputs after a step are those that stood behind the step's own. -/
theorem noReset_of_host_tail {k : Nat} {s t : State} (h : NoReset (k + 1) s) (ht : t.host = s.host.tail) :
    NoReset k t := by
  intro i hi
  apply h i
  rw [ht] at hi
  cases hh : s.host with
  | nil => simp [hh] at hi
  | cons j js => exact List.mem_cons_of_mem j (by simpa [hh] using hi)

/-! ### One step -/

/-- Without reset a step delivers, then accepts if the handshake is complete (R60, R213). -/
theorem stepBy_of_not_rst (p : Params) (depth : Nat) {s : State opW} (hrst : s.portIn.rst = false) :
    stepBy (execWith p) depth s = .next
      (if s.acceptsAt depth then s.afterDeliver.push (respond p s.portIn.command) else s.afterDeliver) := by
  obtain ⟨hr, -⟩ | ⟨-, ha, -, h⟩ | ⟨-, ha, h⟩ := stepBy_cases p depth s
  · simp [hrst] at hr
  · rw [h, if_pos ha]
  · rw [h, if_neg (by simp [ha])]

/-- The same of the machine's step. -/
theorem step_of_not_rst {s : State} (hrst : s.portIn.rst = false) :
    step s = .next
      (if s.acceptsAt qdepth then s.afterDeliver.push (respond params s.portIn.command) else s.afterDeliver) := by
  rw [step, exec_eq_execWith, stepBy_of_not_rst params qdepth hrst]

/-- A step that accepts a command runs the decoded instruction after the step's delivery (R63, R213). -/
theorem step_of_accepts {s : State} {i : Instr} (hrst : s.portIn.rst = false) (hacc : s.acceptsAt qdepth = true)
    (hdec : decodeCommand s.portIn.command = .ok i) : step s = exec i s.afterDeliver := by
  simp [step, stepBy, hrst, hacc, accept, hdec]

/-- The command that `offerAt` places is the one its word stands for. -/
theorem State.offerAt_command (depth : Nat) (s : State opW) (w : BitVec (commandWidth opW)) :
    (s.offerAt depth w).portIn.command = Command.ofWord w := rfl

/-- `offerAt` makes room for the command it places (log 12). -/
theorem State.offerAt_acceptsAt {depth : Nat} (hd : 0 < depth) (s : State opW) (w : BitVec (commandWidth opW)) :
    (s.offerAt depth w).acceptsAt depth = true := by
  refine (State.acceptsAt_iff (s := s.offerAt depth w) rfl depth).2 ⟨rfl, ?_⟩
  unfold State.offerAt
  by_cases hroom : s.q.length < depth <;> simp [hroom, hd]

/-- The instruction read from a table word is the one its command decodes to. -/
theorem decodeCommand_of_decodeTableWord {nbits w : Nat} {i : Instr} (h : decodeTableWord nbits w = some i) :
    decodeCommand (opW := OP_W) (Command.ofWord (tableWord nbits w)) = .ok i := by
  unfold decodeTableWord decode decodeAt at h
  split at h
  · next hdec => rw [hdec, Option.some.inj h]
  · cases h

/-! ### The queue invariant -/

/-- A delivery keeps the queue invariant. -/
theorem queueOk_afterDeliver {depth : Nat} {s : State} (h : QueueOk depth s) : QueueOk depth s.afterDeliver := by
  obtain ⟨hlen, hill⟩ := h
  exact ⟨s.afterDeliver_length_le.trans hlen, fun x hx => hill x (State.mem_of_mem_afterDeliver hx)⟩

/-- A response to a command keeps the queue invariant where there is room for it. -/
theorem queueOk_push_respond (p : Params) (c : Command) {depth : Nat} {s : State} (h : QueueOk depth s)
    (hroom : s.q.length < depth) : QueueOk depth (s.push (respond p c)) := by
  obtain ⟨-, hill⟩ := h
  refine ⟨by simpa using hroom, fun x hx => ?_⟩
  rw [State.push_q, List.mem_append, List.mem_singleton] at hx
  obtain hx | rfl := hx
  · exact hill x hx
  · exact respond_ill p c

/-- Every step of a unit, whatever its depth and parameters, keeps the queue invariant. -/
theorem stepBy_keeps_queueOk {p : Params} {depth : Nat} {s t : State} (hok : QueueOk depth s)
    (hstep : stepBy (execWith p) depth s = .next t) : QueueOk depth t := by
  obtain ⟨-, h⟩ | ⟨-, -, hroom, h⟩ | ⟨-, -, h⟩ := stepBy_cases p depth s <;>
    obtain rfl := Host.Outcome.next.inj (h.symm.trans hstep)
  · simp [QueueOk]
  · exact queueOk_push_respond p _ (queueOk_afterDeliver hok) (s.afterDeliver_length_le.trans_lt hroom)
  · exact queueOk_afterDeliver hok

/-! ### Runs without reset -/

/-- Every step uses up the host's inputs of that step and no others. -/
theorem nextBy_host (p : Params) (depth : Nat) (s : State opW) :
    (nextBy (execWith p) depth s).host = s.host.tail := by
  obtain ⟨-, h⟩ | ⟨-, -, -, h⟩ | ⟨-, -, h⟩ := stepBy_cases p depth s <;> simp [nextBy_of_stepBy h]

/-- A step without reset loses no response, makes none but that to the accepted command, and keeps the order. -/
theorem nextBy_conserves (p : Params) (depth : Nat) {s : State opW} (hrst : s.portIn.rst = false) :
    (nextBy (execWith p) depth s).observed ++ (nextBy (execWith p) depth s).q =
      s.observed ++ s.q ++ (if s.acceptsAt depth then [s.portIn.command] else []).map (respond p) := by
  rw [nextBy_of_stepBy (stepBy_of_not_rst p depth hrst), ← s.afterDeliver_conserves]
  split <;> simp

/-- Over a run without reset, the responses observed and those in `Q` are the earlier ones and then the responses
to the accepted commands, in the order of acceptance (R46). -/
theorem runBy_conserves (p : Params) (depth k : Nat) (s : State) (h : NoReset k s) :
    (runBy (execWith p) depth k s).observed ++ (runBy (execWith p) depth k s).q =
      s.observed ++ s.q ++ (acceptedBy (execWith p) depth k s).map (respond p) := by
  induction k generalizing s with
  | zero => simp [runBy, acceptedBy]
  | succ k ih =>
    have hnext := nextBy_conserves p depth (rst_of_noReset h)
    rw [runBy, acceptedBy, ih _ (noReset_of_host_tail h (nextBy_host p depth s)), hnext, List.map_append,
      List.append_assoc (s.observed ++ s.q)]

/-- A run without reset that starts and ends with `Q` empty has delivered exactly the responses to its accepted
commands (R30). -/
theorem runBy_observed_of_q_nil (p : Params) (depth k : Nat) {s : State} (h : NoReset k s) (hstart : s.q = [])
    (hend : (runBy (execWith p) depth k s).q = []) :
    (runBy (execWith p) depth k s).observed = s.observed ++ (acceptedBy (execWith p) depth k s).map (respond p) := by
  simpa [hstart, hend] using runBy_conserves p depth k s h

/-! ### A host that issues commands one at a time -/

/-- An empty unit that is offered a command holds its response after the step, whatever `QDEPTH` is. -/
theorem step_offer (c : Command) (is : List PortIn) (obs : List Response) (n : Nat) :
    step ⟨[], PortIn.offer c :: is, obs, n⟩ = .next ⟨[respond params c], is, obs, n + 1⟩ := by
  have hacc : State.acceptsAt qdepth (⟨[], PortIn.offer c :: is, obs, n⟩ : State) = true :=
    (State.acceptsAt_iff rfl qdepth).2 ⟨rfl, Nat.succ_pos _⟩
  rw [step_of_not_rst rfl, if_pos hacc, State.afterDeliver_of_q_nil rfl]
  rfl

/-- A host that takes the one response in `Q` leaves the unit empty. -/
theorem step_take (x : Response) (is : List PortIn) (obs : List Response) (n : Nat) :
    step ⟨[x], PortIn.take :: is, obs, n⟩ = .next ⟨[], is, obs ++ [x], n + 1⟩ := by
  have hacc : State.acceptsAt qdepth (⟨[x], PortIn.take :: is, obs, n⟩ : State) = false := rfl
  rw [step_of_not_rst rfl, hacc, State.afterDeliver_of_rspReady rfl rfl]
  rfl

/-- `k + 1` steps of the machine, of which the first is known. -/
theorem run_succ_of_step {s t : State} (h : step s = .next t) (k : Nat) :
    Host.Core.run Sys2Proof.core (k + 1) s = Host.Core.run Sys2Proof.core k t := by
  simp only [Host.Core.run, Sys2Proof.core, h]

/-- The run with a patient host, state by state: after two steps per command all responses are observed. -/
theorem run_oneAtATime (cs : List Command) (obs : List Response) (n : Nat) :
    Host.Core.run Sys2Proof.core (2 * cs.length) (⟨[], oneAtATime cs, obs, n⟩ : State) =
      .next (⟨[], [], obs ++ cs.map (respond params), n + 2 * cs.length⟩ : State) := by
  induction cs generalizing obs n with
  | nil => simp [Host.Core.run, oneAtATime]
  | cons c cs ih =>
    have htwo : 2 * (c :: cs).length = 2 * cs.length + 1 + 1 := rfl
    have htick : n + 1 + 1 + 2 * cs.length = n + (2 * cs.length + 1 + 1) := by omega
    rw [htwo, oneAtATime, run_succ_of_step (step_offer c _ obs n), run_succ_of_step (step_take _ _ obs (n + 1)), ih,
      htick]
    simp

end Sys2Proof.Machine
end

section
open Sys2Proof Sys2Proof.Machine Sys2Proof.Config Sys2Proof.Safety

/-- Settles O51: the machine's step is that of a unit with the default parameters, and every unit's step keeps the
invariant: a delivery takes a response away, and an accepted command finds room and is answered as R65 has it. -/
theorem queueInvariantIsKeptByEveryStep : Obligations.QueueInvariantIsKeptByEveryStep := by
  intro s t hok hstep
  rw [step, exec_eq_execWith] at hstep
  exact stepBy_keeps_queueOk hok hstep

/-- Settles O52: a step without reset is a delivery and then an acceptance, each exactly when its handshake is
complete. -/
theorem queueMovesByAcceptAndDeliverOnly : Obligations.QueueMovesByAcceptAndDeliverOnly := by
  intro s hrst delivers accepts
  refine ⟨_, s.afterDeliver.q, step_of_not_rst hrst, ?_, ?_, ?_, ?_⟩
  · intro hdel
    obtain ⟨x, rest, hq⟩ := List.exists_cons_of_ne_nil hdel.2
    have hd := (State.delivers_iff hrst).2 hdel
    refine ⟨x, ?_, ?_⟩
    · simp [State.afterDeliver_q, hd, hq]
    · split <;> simp [State.afterDeliver_observed, hd, hq]
  · intro hno
    have hd : ¬s.delivers = true := fun h => hno ((State.delivers_iff hrst).1 h)
    refine ⟨?_, ?_⟩
    · simp [State.afterDeliver_q, hd]
    · split <;> simp [State.afterDeliver_observed, hd]
  · intro hacc
    rw [if_pos ((State.acceptsAt_iff hrst qdepth).2 hacc), State.push_q]
  · intro hno
    rw [if_neg fun h => hno ((State.acceptsAt_iff hrst qdepth).1 h)]

/-- Settles O56: each run has observed the earlier responses and then those to its accepted commands
(`runBy_observed_of_q_nil`), in which neither the depth nor the schedule occurs. -/
theorem observationIgnoresDepthAndTiming : Obligations.ObservationIgnoresDepthAndTiming := by
  intro p d₁ d₂ k₁ k₂ s₁ s₂ hn₁ hn₂ hq₁ hq₂ hobs he₁ he₂ hacc
  rw [runBy_observed_of_q_nil p d₁ k₁ hn₁ hq₁ he₁, runBy_observed_of_q_nil p d₂ k₂ hn₂ hq₂ he₂, hobs, hacc]

/-- Settles O57: by induction on the commands, each of which takes an offering and a taking step. -/
theorem patientHostIsAnsweredCommandByCommand : Obligations.PatientHostIsAnsweredCommandByCommand := by
  rintro cs ⟨q, host, obs, n⟩ rfl rfl
  exact ⟨_, run_oneAtATime cs obs n, rfl, by simp [Finished], rfl⟩

/-- Settles O60: with no command on the ports a step accepts nothing, and with `Q` empty it delivers nothing. -/
theorem finishedRunIsOver : Obligations.FinishedRunIsOver := by
  refine ⟨fun s t hfin hstep => ?_, by simp [Finished]⟩
  have ⟨hhost, hq⟩ := hfin
  have htail : ∀ i ∈ s.host.tail, i.cmdValid = false := fun i hi => hhost i (List.mem_of_mem_tail hi)
  obtain ⟨-, h⟩ | ⟨-, hacc, -, -⟩ | ⟨-, -, h⟩ := step_cases s
  · obtain rfl := Host.Outcome.next.inj (h.symm.trans hstep)
    exact ⟨⟨htail, rfl⟩, rfl⟩
  · simp [State.acceptsAt, State.cmdValid_of_finished hfin] at hacc
  · obtain rfl := Host.Outcome.next.inj (h.symm.trans hstep)
    rw [State.afterDeliver_of_q_nil hq]
    exact ⟨⟨htail, hq⟩, rfl⟩

/-- Settles O47: the instruction runs in the state after the step's delivery; a word placed by `withFetchWord` finds
its command on the ports and room in `Q`. -/
theorem stepRunsTheOfferedInstruction : Obligations.StepRunsTheOfferedInstruction := by
  constructor
  · intro s i hrst hvalid hroom hdec
    have hacc := (State.acceptsAt_iff hrst qdepth).2 ⟨hvalid, hroom⟩
    refine ⟨s.afterDeliver, step_of_accepts hrst hacc hdec, by simp, by simp, fun hready => ?_, fun hready => ?_⟩
    · simp [State.afterDeliver_of_rspReady hrst hready]
    · simp [State.afterDeliver_of_not_rspReady hready]
  · intro s nbits w i hdec
    have hacc := State.offerAt_acceptsAt (Nat.succ_pos _ : 0 < qdepth) s (tableWord nbits w)
    refine ⟨_, step_of_accepts rfl hacc (decodeCommand_of_decodeTableWord hdec), ?_⟩
    rw [State.afterDeliver_host]
    rfl

/-- Settles O50: the fields of `State.reset`, one by one. -/
theorem stateAfterResetIsTheEmptyQueue : Obligations.StateAfterResetIsTheEmptyQueue :=
  ⟨State.reset_q, by simp [QueueOk], State.reset_host, State.reset_observed, State.reset_tick⟩

end

/-! PROOFS of the statements of `20_memory.md`. -/
section
open Sys2Proof Sys2Proof.Machine Sys2Proof.Config

/-- Settles O55: every step without reset conserves the responses (`nextBy_conserves`), and so by induction on the
steps does every run (`runBy_conserves`); `exec` is the executor of the unit with the default parameters
(`exec_eq_execWith`). -/
theorem responsesComeInCommandOrder : Obligations.ResponsesComeInCommandOrder := by
  refine ⟨runBy_conserves, fun i s => ?_⟩
  rw [exec_eq_execWith]

end

/-! PROOFS of the statements of `30_encoding.md`: the command word, the code map and its inverse, the responses to
defined and undefined codes, and the commands of script lines (R61 to R68). -/
section
namespace Sys2Proof

open Sys2Proof.Safety

variable {opW : Nat}

/-! ### The command word -/

/-- No bit of a command is dropped or moved in its word (R61). -/
@[simp] theorem Command.ofWord_toWord (c : Command opW) : Command.ofWord c.toWord = c := by
  have hop : c.toWord.extractLsb' 64 opW = c.op :=
    (BitVec.extractLsb'_append_eq_of_le (by omega)).trans BitVec.extractLsb'_append_eq_left
  have ha : c.toWord.extractLsb' 32 32 = c.a :=
    (BitVec.extractLsb'_append_eq_of_le (by omega)).trans BitVec.extractLsb'_append_eq_right
  have hb : c.toWord.extractLsb' 0 32 = c.b := BitVec.extractLsb'_append_eq_right
  rw [Command.ofWord, hop, ha, hb]

/-! ### The code map and its inverse -/

/-- A width of at least 7 bits holds every code up to R64's largest. -/
theorem code_mod_two_pow {n : Nat} (hw : 7 ≤ opW) (hn : n ≤ 0x55) : n % 2 ^ opW = n :=
  Nat.mod_eq_of_lt (lt_of_lt_of_le (by omega : n < 2 ^ 7) (Nat.pow_le_pow_right (by omega) hw))

/-- The map of R64 sends the command of an instruction to that instruction, at every width that holds the codes. -/
theorem decodeCommand_commandAt (hw : 7 ≤ opW) (i : Instr) : decodeCommand (i.commandAt opW) = .ok i := by
  cases i <;> simp [decodeCommand, Instr.commandAt, code_mod_two_pow hw]

/-- Instructions with the same command are the same. -/
theorem Instr.command_injective {i j : Instr} (h : i.command = j.command) : i = j := by
  have hi : decodeCommand i.command = .ok i := decodeCommand_commandAt (by decide) i
  rw [h, decodeCommand_commandAt (by decide)] at hi
  exact (Except.ok.inj hi).symm

/-- The command of a decoded instruction has the code, the first operand, and the second operand of a format-B code;
that of a format-U code is dropped (R61, R64). -/
theorem command_of_decodeCommand {c : Command} {i : Instr} (h : decodeCommand c = .ok i) :
    i.command = ⟨c.op, c.a, if usesB c.op then c.b else 0#32⟩ := by
  have hop : c.op = BitVec.ofNat OP_W c.op.toNat := by simp
  unfold decodeCommand at h
  split at h
  case h_33 => cases h
  all_goals
    next hcode =>
      rw [hcode] at hop
      rw [← Except.ok.inj h, hop]
      rfl

/-! ### The illegal codes -/

/-- The codes outside the ranges that R65 lists. -/
theorem OpCode.legal_iff (op : BitVec opW) : OpCode.legal op = true ↔
    op.toNat ≤ 0x08 ∨ (0x10 ≤ op.toNat ∧ op.toNat ≤ 0x16) ∨ (0x20 ≤ op.toNat ∧ op.toNat ≤ 0x22) ∨
    (0x30 ≤ op.toNat ∧ op.toNat ≤ 0x32) ∨ (0x40 ≤ op.toNat ∧ op.toNat ≤ 0x43) ∨
    (0x50 ≤ op.toNat ∧ op.toNat ≤ 0x55) := by
  unfold OpCode.legal lastFunction
  split_ifs <;> simp <;> omega

/-- What the decoder can do: a code that R65 does not list gives an instruction, and a listed one is rejected by
name, whatever the operands are. -/
theorem decodeCommand_cases (c : Command opW) :
    (OpCode.legal c.op = true ∧ ∃ i, decodeCommand c = .ok i) ∨
    (OpCode.legal c.op = false ∧ decodeCommand c = .error (.illegalOpCode c.op)) := by
  unfold decodeCommand
  split
  case h_33 =>
    refine .inr ⟨?_, rfl⟩
    rw [Bool.eq_false_iff, Ne, OpCode.legal_iff]
    simp only [imp_false] at *
    omega
  all_goals
    next hcode => exact .inl ⟨(OpCode.legal_iff _).2 (by omega), _, rfl⟩

/-- A code that R65 does not list gives an instruction. -/
theorem exists_decodeCommand_of_legal {c : Command opW} (h : OpCode.legal c.op = true) :
    ∃ i, decodeCommand c = .ok i := by
  obtain ⟨-, hok⟩ | ⟨hill, -⟩ := decodeCommand_cases c
  · exact hok
  · rw [h] at hill; cases hill

/-- A code that R65 lists is rejected, and the rejection names it. -/
theorem decodeCommand_of_not_legal {c : Command opW} (h : OpCode.legal c.op = false) :
    decodeCommand c = .error (.illegalOpCode c.op) := by
  obtain ⟨hleg, -⟩ | ⟨-, herr⟩ := decodeCommand_cases c
  · rw [h] at hleg; cases hleg
  · exact herr

/-- The code alone decides whether a command decodes (R63). -/
theorem exists_decodeCommand_iff (c : Command opW) :
    (∃ i, decodeCommand c = .ok i) ↔ OpCode.legal c.op = true := by
  refine ⟨fun ⟨i, hok⟩ => ?_, exists_decodeCommand_of_legal⟩
  rw [← Bool.not_eq_false]
  intro hill
  rw [decodeCommand_of_not_legal hill] at hok
  cases hok

/-- The second operand of a code that is not of format B does not reach the decoded instruction (R61). -/
theorem decodeCommand_ignores_b {op : OpCode} (h : usesB op = false) (a b b' : Word) :
    decodeCommand (⟨op, a, b⟩ : Command) = decodeCommand ⟨op, a, b'⟩ := by
  cases hleg : OpCode.legal op
  · rw [decodeCommand_of_not_legal hleg, decodeCommand_of_not_legal hleg]
  · obtain ⟨i, hi⟩ := exists_decodeCommand_of_legal (c := ⟨op, a, b⟩) hleg
    obtain ⟨j, hj⟩ := exists_decodeCommand_of_legal (c := ⟨op, a, b'⟩) hleg
    have hcmd : i.command = j.command := by
      rw [command_of_decodeCommand hi, command_of_decodeCommand hj]
      simp [h]
    rw [hi, hj, Instr.command_injective hcmd]

end Sys2Proof

namespace Sys2Proof.Machine

open Sys2Proof.Config Sys2Proof.Safety

variable {opW : Nat}

/-! ### Responses -/

/-- A defined code is answered with the result of its instruction and `ill = 0` (R62, R63). -/
theorem respond_of_decodeCommand {c : Command opW} {i : Instr} (h : decodeCommand c = .ok i) (p : Params) :
    respond p c = ⟨result p i, false⟩ := by
  simp [respond, h, illOfDefined]

/-- An undefined code is answered with the canonical NaN and `ill = 1`, whatever the parameters are (R65, R211). -/
theorem respond_of_not_legal {c : Command opW} (h : OpCode.legal c.op = false) (p : Params) :
    respond p c = ⟨CNAN, true⟩ := by
  simp [respond, decodeCommand_of_not_legal h, illOfUndefined]

/-! ### Script lines -/

/-- The command of a line has the code of its name and the words of its operands, and there is one exactly if the
line is well formed and has all three (R67). -/
theorem lineCommand_eq_some_iff {results : List (String × Word)} {l : ScriptLine} {c : Command} :
    lineCommand results l = some c ↔ l.wellFormed = true ∧ scriptCodes.lookup l.mnemonic = some c.op ∧
      operandWord results l.a = some c.a ∧ secondWord results l.b = some c.b := by
  obtain ⟨op, a, b⟩ := c
  unfold lineCommand
  split_ifs with hwf
  · split
    · next hop ha hb => simp [hwf, hop, ha, hb]
    · next hno => exact iff_of_false (by simp) fun ⟨_, hop, ha, hb⟩ => hno _ _ _ hop ha hb
  · simp [hwf]

/-- A name's code is legal, and it is of format B exactly if the name takes two operands (R64, R67). -/
theorem scriptCodes_legal_format : ∀ e ∈ scriptCodes, OpCode.legal e.2 = true ∧
    scriptNames.lookup e.1 = some (if usesB e.2 then 2 else 1) := by
  decide

/-- The entry that a lookup finds is in the list. -/
theorem mem_of_lookup_eq_some {α β : Type} [BEq α] [LawfulBEq α] {l : List (α × β)} {k : α} {b : β}
    (h : l.lookup k = some b) : (k, b) ∈ l := by
  obtain ⟨l₁, l₂, rfl, -⟩ := List.lookup_eq_some_iff.1 h
  simp

theorem operandCount_eq (l : ScriptLine) : l.operandCount = if l.b.isSome then 2 else 1 := by
  unfold ScriptLine.operandCount
  cases l.b <;> rfl

/-- A well-formed line has a second operand exactly if its name's code is of format B. -/
theorem usesB_of_wellFormed {l : ScriptLine} {op : OpCode} (hwf : l.wellFormed = true)
    (hmem : (l.mnemonic, op) ∈ scriptCodes) : usesB op = l.b.isSome := by
  have hline : scriptNames.lookup l.mnemonic = some l.operandCount := of_decide_eq_true hwf
  have hname := (scriptCodes_legal_format _ hmem).2
  have hcount := Option.some.inj (hname.symm.trans hline)
  rw [operandCount_eq] at hcount
  cases hu : usesB op <;> cases hb : l.b.isSome <;> simp [hu, hb] at hcount ⊢

end Sys2Proof.Machine

open Sys2Proof Sys2Proof.Machine Sys2Proof.Config Sys2Proof.Safety

/-- Settles O1: the fields of a command come back from its word (`Command.ofWord_toWord`), and the map of R64 undoes
the encoder's choice of code (`decodeCommand_commandAt`), at the machine's width as at every other that holds the
codes. -/
theorem decodingAnEncodedInstructionGivesItBack : Obligations.DecodingAnEncodedInstructionGivesItBack := by
  have hall : ∀ opW : Nat, 7 ≤ opW → ∀ i : Instr, decodeAt (encodeAt opW i) = .ok i := by
    intro opW hw i
    rw [decodeAt, encodeAt, Command.ofWord_toWord, decodeCommand_commandAt hw]
  exact ⟨hall OP_W (by decide), hall⟩

/-- Settles O2: `command_of_decodeCommand` for the three fields of the word. -/
theorem decodedInstructionKeepsEveryOperandBit : Obligations.DecodedInstructionKeepsEveryOperandBit :=
  fun _ _ h => command_of_decodeCommand h

/-- Settles O3: of the two things the decoder can do (`decodeCommand_cases`), the code decides which. -/
theorem exactlyTheUnlistedCodesAreRejected : Obligations.ExactlyTheUnlistedCodesAreRejected :=
  fun w => ⟨exists_decodeCommand_iff (Command.ofWord w), decodeCommand_of_not_legal (c := Command.ofWord w)⟩

/-- Settles O4: both commands decode alike (`decodeCommand_ignores_b`), and a response is made of what its command
decodes to. -/
theorem oneOperandOperationsIgnoreTheSecondOperand : Obligations.OneOperandOperationsIgnoreTheSecondOperand := by
  intro p op a b b' h
  rw [respond, respond, decodeCommand_ignores_b h a b b']

/-- Settles O43: each meaning is the executor's answer with the instruction's result (`exec_eq_execWith`, one case
per instruction), and an answer only adds its response to `Q`. -/
theorem everyInstructionAnswersOnce : Obligations.EveryInstructionAnswersOnce := by
  intro i s
  have hexec : exec i s = .next (s.answer (result params i)) := by rw [exec_eq_execWith, execWith_apply]
  exact ⟨_, hexec, s.answer_q _, s.answer_host _, s.answer_observed _, s.answer_tick _⟩

/-- Settles O45: a legal code decodes, and the response is made of what the command decodes to; an illegal one is
answered with a constant. -/
theorem flagReportsOnlyAnUndefinedCode : Obligations.FlagReportsOnlyAnUndefinedCode := by
  refine fun c => ⟨fun hleg => ?_, fun hill => ?_⟩
  · obtain ⟨i, hi⟩ := exists_decodeCommand_of_legal hleg
    have hr := respond_of_decodeCommand hi params
    exact ⟨i, hi, hr, by rw [hr]; rfl⟩
  · have hr := respond_of_not_legal hill params
    exact ⟨hr, by rw [hr]; rfl⟩

/-- Settles O48: the step accepts (`State.acceptsAt_iff`), so it delivers and then adds the response to the command
(`step_of_not_rst`), which for an undefined code is the constant of R65. -/
theorem illegalCommandIsAnsweredInTheQueue : Obligations.IllegalCommandIsAnsweredInTheQueue := by
  intro s hrst hvalid hroom hill
  have hacc := (State.acceptsAt_iff hrst qdepth).2 ⟨hvalid, hroom⟩
  have hresp : respond params s.portIn.command = ⟨0x7FC00000#32, true⟩ := respond_of_not_legal hill params
  refine ⟨_, step_of_not_rst hrst, ?_⟩
  rw [if_pos hacc, hresp]
  cases hready : s.portIn.rspReady
  · simp [State.afterDeliver_of_not_rspReady hready]
  · simp [State.afterDeliver_of_rspReady hrst hready]

/-- Settles O59: the line's name and operands give the fields of its command (`lineCommand_eq_some_iff`); the list
of names fixes the code's format (`scriptCodes_legal_format`). -/
theorem scriptLinesGiveLegalCommands : Obligations.ScriptLinesGiveLegalCommands := by
  intro results l c h
  obtain ⟨hwf, hop, ha, hb⟩ := lineCommand_eq_some_iff.1 h
  have hmem : (l.mnemonic, c.op) ∈ scriptCodes := mem_of_lookup_eq_some hop
  refine ⟨hmem, (scriptCodes_legal_format _ hmem).1, usesB_of_wellFormed hwf hmem, ha, fun x hx => ?_, fun hnone => ?_⟩
  · rwa [hx] at hb
  · rw [hnone] at hb
    exact (Option.some.inj hb).symm

/-- Settles O5: the decoder evaluates each of the words. -/
theorem wordsOfTheSpecDecodeAsWritten : Obligations.WordsOfTheSpecDecodeAsWritten :=
  ⟨rfl, rfl, rfl, rfl, rfl, rfl, rfl, rfl, rfl⟩

/-- Settles O58: each of the three names takes one operand and has the code of `PASS`, and a missing second operand
stands for zero. -/
theorem pseudoInstructionsArePass : Obligations.PseudoInstructionsArePass := by
  intro results label x a hx
  exact ⟨lineCommand_eq_some_iff.2 ⟨rfl, rfl, hx, rfl⟩, lineCommand_eq_some_iff.2 ⟨rfl, rfl, hx, rfl⟩,
    lineCommand_eq_some_iff.2 ⟨rfl, rfl, hx, rfl⟩⟩

end

/-! PROOFS of the statements of `40_numerics.md`: rounding, the special cases of the primitives, comparisons and
conversions (R83 to R95). -/
section
namespace Sys2Proof.Machine

open Sys2Proof.Config

/-! ### The quantum of a real (R84) -/

/-- A real below `2^24` units has the quantum of one unit, and any other has at least `2^23` quanta. -/
theorem quantum_eq_zero_or_le (N D : Nat) : quantum N D = 0 ∨ 2 ^ 23 * 2 ^ quantum N D ≤ N / D := by
  unfold quantum
  split
  · exact .inl rfl
  · next h =>
    have h23 : 23 ≤ Nat.log2 (N / D) := (Nat.le_log2 (by omega)).2 (by omega)
    right
    rw [← pow_add, Nat.add_sub_cancel' h23]
    exact Nat.log2_self_le (by omega)

/-- No real has `2^24` quanta. -/
theorem div_lt_two_pow_quantum (N D : Nat) : N / D < 2 ^ 24 * 2 ^ quantum N D := by
  unfold quantum
  split
  · omega
  · rw [← pow_add]
    exact lt_of_lt_of_le Nat.lt_log2_self (Nat.pow_le_pow_right (by omega) (by omega))

/-- A magnitude of at most 24 significant bits is a whole number of quanta of the real, or it lies below the
binade of the real. -/
theorem significand_quanta_or_lt {c k N D : Nat} (hc : c < 2 ^ 24) :
    (∃ m, c * 2 ^ k = m * 2 ^ quantum N D) ∨
      (c * 2 ^ k < 2 ^ 23 * 2 ^ quantum N D ∧ 2 ^ 23 * 2 ^ quantum N D ≤ N / D) := by
  by_cases hk : quantum N D ≤ k
  · left
    exact ⟨c * 2 ^ (k - quantum N D), by rw [mul_assoc, ← pow_add, Nat.sub_add_cancel hk]⟩
  · right
    have hle : 2 ^ 23 * 2 ^ quantum N D ≤ N / D := (quantum_eq_zero_or_le N D).resolve_left (by omega)
    refine ⟨?_, hle⟩
    calc c * 2 ^ k < 2 ^ 24 * 2 ^ k := Nat.mul_lt_mul_of_pos_right hc (Nat.two_pow_pos k)
      _ = 2 ^ 23 * 2 ^ (k + 1) := by ring
      _ ≤ 2 ^ 23 * 2 ^ quantum N D := Nat.mul_le_mul_left _ (Nat.pow_le_pow_right (by omega) (by omega))

/-! ### The nearest whole number of quanta -/

/-- No whole number is nearer to `N / D` than `nearestEven N D`, which is even if another is as near. -/
theorem nearestEven_nearest (N m : Nat) {D : Nat} (hD : 0 < D) :
    |(nearestEven N D * D : ℤ) - N| ≤ |(m * D : ℤ) - N| ∧
      (|(nearestEven N D * D : ℤ) - N| = |(m * D : ℤ) - N| → m ≠ nearestEven N D → nearestEven N D % 2 = 0) := by
  obtain ⟨hup, hlo, htie⟩ := nearestEven_spec N hD
  generalize nearestEven N D = n at *
  obtain hlt | rfl | hgt := lt_trichotomy m n
  · have hstep : (m + 1) * D ≤ n * D := Nat.mul_le_mul_right D hlt
    rw [Nat.add_mul] at hstep
    zify at *
    simp only [abs_eq_max_neg]
    omega
  · simp
  · have hstep : (n + 1) * D ≤ m * D := Nat.mul_le_mul_right D hgt
    rw [Nat.add_mul] at hstep
    zify at *
    simp only [abs_eq_max_neg]
    omega

/-- The whole number of quanta that stands for a real is no farther from it than any magnitude of at most 24
significant bits, and it is even if another such magnitude is as near (R84). -/
theorem quanta_nearest {c k N D : Nat} (hD : 0 < D) (hc : c < 2 ^ 24) {n q : Nat} (hq : quantum N D = q)
    (hn : nearestEven N (D * 2 ^ q) = n) :
    |((n * 2 ^ q : ℕ) * D : ℤ) - N| ≤ |((c * 2 ^ k : ℕ) * D : ℤ) - N| ∧
      (|((n * 2 ^ q : ℕ) * D : ℤ) - N| = |((c * 2 ^ k : ℕ) * D : ℤ) - N| → c * 2 ^ k ≠ n * 2 ^ q → n % 2 = 0) := by
  subst hq
  have hD' : 0 < D * 2 ^ quantum N D := Nat.mul_pos hD (Nat.two_pow_pos _)
  have hquanta : ∀ m : ℕ, ((m * 2 ^ quantum N D : ℕ) * D : ℤ) = m * (D * 2 ^ quantum N D : ℕ) := by
    intro m; push_cast; ring
  obtain ⟨m, hm⟩ | ⟨hlt, hle⟩ := significand_quanta_or_lt (k := k) (N := N) (D := D) hc
  · rw [hm, hquanta, hquanta, ← hn]
    obtain ⟨hnear, htie⟩ := nearestEven_nearest N m hD'
    exact ⟨hnear, fun heq hne => htie heq fun h => hne (by rw [h])⟩
  · -- The bottom of the real's binade is a whole number of quanta between that magnitude and the real.
    have hcb : c * 2 ^ k * D < 2 ^ 23 * 2 ^ quantum N D * D := Nat.mul_lt_mul_of_pos_right hlt hD
    have hbN : 2 ^ 23 * 2 ^ quantum N D * D ≤ N := (Nat.le_div_iff_mul_le hD).1 hle
    have hbottom := (nearestEven_nearest N (2 ^ 23) hD').1
    rw [← hquanta, ← hquanta, hn] at hbottom
    zify at *
    generalize (n : ℤ) * 2 ^ quantum N D * D = x at *
    generalize (2 : ℤ) ^ 23 * 2 ^ quantum N D * D = y at *
    generalize (c : ℤ) * 2 ^ k * D = z at *
    simp only [abs_eq_max_neg] at *
    omega

/-- The whole number of quanta that stands for a real needs no 25th bit: `2^24` quanta are `2^23` quanta of the next
binade. A multiple of a quantum above one unit keeps its leading bit in place 23. -/
theorem exists_significand {n q : Nat} (hle : n ≤ 2 ^ 24) (hq : q = 0 ∨ 2 ^ 23 ≤ n) :
    ∃ c k, n * 2 ^ q = c * 2 ^ k ∧ c < 2 ^ 24 ∧ (k = 0 ∨ 2 ^ 23 ≤ c) ∧ (n % 2 = 0 → c % 2 = 0) := by
  obtain hlt | rfl := hle.lt_or_eq
  · exact ⟨n, q, rfl, hlt, hq, id⟩
  · exact ⟨2 ^ 23, q + 1, by ring, by norm_num, .inr le_rfl, fun _ => by norm_num⟩

/-! ### The word of a magnitude -/

/-- From `2^277` units on the word of a magnitude is an infinity (R84). -/
theorem ofMagnitude_of_ge (s : Bool) {v : Nat} (h : 2 ^ 277 ≤ v) : ofMagnitude s v = infOf s := by
  have h23 : 2 ^ 23 ≤ v := le_trans (Nat.pow_le_pow_right (by norm_num) (by norm_num)) h
  rw [ofMagnitude, if_neg h23.not_gt, if_pos ((Nat.le_log2 (by omega)).2 h), infOf]

/-- Below `2^277` units the word of a magnitude is finite (R84). -/
theorem isFinite_ofMagnitude (s : Bool) {v : Nat} (h : v < 2 ^ 277) : isFinite (ofMagnitude s v) = true := by
  rw [isFinite_iff]
  unfold ofMagnitude
  split
  · simp
  · next h23 =>
    have hlog : Nat.log2 v < 277 := (Nat.log2_lt (by omega)).2 h
    rw [if_neg (by omega), expBits_ofFields, Ne, ← BitVec.toNat_inj]
    simp
    omega

theorem getLsbD_zero_ofFields (s : Bool) (e : BitVec 8) (m : BitVec 23) :
    (ofFields s e m).getLsbD 0 = decide (m.toNat % 2 = 1) := by
  rw [← Nat.testBit_zero, BitVec.testBit_toNat, ofFields, BitVec.getLsbD_append]
  simp

/-- The last mantissa bit of the word of an even significand is 0. -/
theorem getLsbD_zero_ofMagnitude (s : Bool) {c k : Nat} (hc : c < 2 ^ 24) (hk : k = 0 ∨ 2 ^ 23 ≤ c)
    (heven : c % 2 = 0) : (ofMagnitude s (c * 2 ^ k)).getLsbD 0 = false := by
  unfold ofMagnitude
  split_ifs with h23
  · have hv : (c * 2 ^ k) % 2 = 0 := by rw [Nat.mul_mod, heven]; simp
    rw [getLsbD_zero_ofFields, BitVec.toNat_ofNat, Nat.mod_eq_of_lt h23, hv]
    rfl
  · rw [getLsbD_zero_ofFields]
    rfl
  · have hge : 2 ^ 23 ≤ c := hk.elim (fun h0 => by simpa [h0] using h23) id
    have hlog : Nat.log2 c = 23 := (Nat.log2_eq_iff (by omega)).2 ⟨hge, hc⟩
    have hv : c % 2 ^ 23 % 2 = 0 := by omega
    rw [log2_mul_two_pow (by omega), hlog, Nat.add_sub_cancel_left, Nat.mul_div_cancel _ (Nat.two_pow_pos k),
      getLsbD_zero_ofFields, BitVec.toNat_ofNat, hv]
    rfl

/-! ### The rounded real -/

/-- A real with a quantum above one unit is rounded to at least `2^23` quanta. -/
theorem le_nearestEven_quantum (N D : Nat) :
    quantum N D = 0 ∨ 2 ^ 23 ≤ nearestEven N (D * 2 ^ quantum N D) := by
  refine (quantum_eq_zero_or_le N D).imp_right fun h => le_trans ?_ (div_le_nearestEven N _)
  rwa [← Nat.div_div_eq_div_mul, Nat.le_div_iff_mul_le (Nat.two_pow_pos _)]

/-- The fraction halfway below `2^24` is the first that is rounded up to it: the tie goes to the even number. -/
theorem nearestEven_lt_iff (N : Nat) {D : Nat} (hD : 0 < D) :
    nearestEven N D < 2 ^ 24 ↔ 2 * N < (2 ^ 25 - 1) * D := by
  obtain ⟨hup, hlo, htie⟩ := nearestEven_spec N hD
  generalize nearestEven N D = n at *
  obtain hlt | heq | hge : n + 1 < 2 ^ 24 ∨ n + 1 = 2 ^ 24 ∨ 2 ^ 24 ≤ n := by omega
  · have hstep : (n + 2) * D ≤ 2 ^ 24 * D := Nat.mul_le_mul_right D hlt
    rw [Nat.add_mul] at hstep
    omega
  · have hstep : (n + 1) * D = 2 ^ 24 * D := by rw [heq]
    rw [Nat.add_mul] at hstep
    omega
  · have hstep : 2 ^ 24 * D ≤ n * D := Nat.mul_le_mul_right D hge
    omega

/-- A real is rounded to a magnitude below `2^277` units exactly if it is below `2^277 - 2^252` units (R84). -/
theorem rounded_lt_iff (N : Nat) {D : Nat} (hD : 0 < D) :
    nearestEven N (D * 2 ^ quantum N D) * 2 ^ quantum N D < 2 ^ 277 ↔ N < (2 ^ 277 - 2 ^ 252) * D := by
  have hpow (k : ℕ) (hk : k ≤ 277) : (2 : ℕ) ^ 277 = 2 ^ (277 - k) * 2 ^ k := by rw [← pow_add, Nat.sub_add_cancel hk]
  have hbound : (2 : ℕ) ^ 277 - 2 ^ 252 = (2 ^ 25 - 1) * 2 ^ 252 := by
    rw [hpow 252 (by norm_num), Nat.sub_mul, one_mul]
  obtain hlt | heq | hgt := lt_trichotomy (quantum N D) 253
  · have hq : 2 ^ quantum N D ≤ 2 ^ 252 := Nat.pow_le_pow_right (by norm_num) (by omega)
    have hn : nearestEven N (D * 2 ^ quantum N D) * 2 ^ quantum N D ≤ 2 ^ 24 * 2 ^ 252 :=
      Nat.mul_le_mul (nearestEven_quantum_le N D) hq
    have hN : N < 2 ^ 24 * 2 ^ quantum N D * D := (Nat.div_lt_iff_lt_mul hD).1 (div_lt_two_pow_quantum N D)
    refine iff_of_true (lt_of_le_of_lt hn ?_) (lt_of_lt_of_le hN (Nat.mul_le_mul_right D ?_))
    · rw [hpow 252 (by norm_num)]
      exact Nat.mul_lt_mul_of_pos_right (by norm_num) (Nat.two_pow_pos 252)
    · rw [hbound]
      exact Nat.mul_le_mul (by norm_num) hq
  · have hN : (2 ^ 25 - 1) * (D * 2 ^ 253) = 2 * ((2 ^ 25 - 1) * 2 ^ 252 * D) := by ring
    rw [heq, hbound, hpow 253 (by norm_num), Nat.mul_lt_mul_right (Nat.two_pow_pos 253),
      nearestEven_lt_iff N (Nat.mul_pos hD (Nat.two_pow_pos 253)), hN]
    omega
  · have hq : 2 ^ 254 ≤ 2 ^ quantum N D := Nat.pow_le_pow_right (by norm_num) hgt
    have hn : 2 ^ 23 * 2 ^ 254 ≤ nearestEven N (D * 2 ^ quantum N D) * 2 ^ quantum N D :=
      Nat.mul_le_mul ((le_nearestEven_quantum N D).resolve_left (by omega)) hq
    have hN : 2 ^ 23 * 2 ^ quantum N D * D ≤ N :=
      (Nat.le_div_iff_mul_le hD).1 ((quantum_eq_zero_or_le N D).resolve_left (by omega))
    rw [← hpow 254 (by norm_num)] at hn
    refine iff_of_false hn.not_gt (le_trans (Nat.mul_le_mul_right D (le_trans (Nat.sub_le _ _) ?_)) hN).not_gt
    rw [hpow 254 (by norm_num)]
    exact Nat.mul_le_mul_left _ hq

/-- From `2^277 - 2^252` units on a real is rounded to an infinity (R84). -/
theorem round32_of_ge (s : Bool) {N D : Nat} (hD : 0 < D) (h : (2 ^ 277 - 2 ^ 252) * D ≤ N) :
    round32 tiesToEven s N D = infOf s :=
  ofMagnitude_of_ge s (not_lt.1 fun hlt => ((rounded_lt_iff N hD).1 hlt).not_ge h)

/-- Below `2^277 - 2^252` units a real is rounded to the finite word whose magnitude is the nearest whole number of
quanta, and to one with the last mantissa bit 0 if that number is even (R84). -/
theorem round32_of_lt (s : Bool) {N D : Nat} (hD : 0 < D) (h : N < (2 ^ 277 - 2 ^ 252) * D) :
    isFinite (round32 tiesToEven s N D) = true ∧
    magnitude (round32 tiesToEven s N D) = nearestEven N (D * 2 ^ quantum N D) * 2 ^ quantum N D ∧
    (nearestEven N (D * 2 ^ quantum N D) % 2 = 0 → (round32 tiesToEven s N D).getLsbD 0 = false) := by
  have hlt := (rounded_lt_iff N hD).2 h
  obtain ⟨c, k, hv, hc, hk, heven⟩ := exists_significand (nearestEven_quantum_le N D) (le_nearestEven_quantum N D)
  unfold round32 tiesToEven
  rw [hv] at hlt ⊢
  exact ⟨isFinite_ofMagnitude s hlt, magnitude_ofMagnitude s hc hlt,
    fun he => getLsbD_zero_ofMagnitude s hc hk (heven he)⟩

/-! ### The special cases of the primitives (R85 to R88) -/

section
variable {a b : Word}

theorem isNaN_of_isInf (h : isInf a = true) : isNaN a = false := by
  simp [isNaN, ((isInf_iff a).1 h).2]

theorem isNaN_of_isZero (h : isZero a = true) : isNaN a = false := by
  simp [isNaN, ((isZero_iff a).1 h).2]

theorem fadd_of_isNaN (p : Params) (h : isNaN a = true ∨ isNaN b = true) : fadd p a b = p.cnan :=
  if_pos (by simpa using h)

theorem fsub_of_isNaN (p : Params) (h : isNaN a = true ∨ isNaN b = true) : fsub p a b = p.cnan :=
  fadd_of_isNaN p (by rwa [isNaN_fneg])

theorem fmul_of_isNaN (p : Params) (h : isNaN a = true ∨ isNaN b = true) : fmul p a b = p.cnan :=
  if_pos (by simpa using h)

theorem fdiv_of_isNaN (p : Params) (h : isNaN a = true ∨ isNaN b = true) : fdiv p a b = p.cnan :=
  if_pos (by simpa using h)

theorem fadd_of_opposite_infinities (p : Params) (ha : isInf a = true) (hb : isInf b = true)
    (hs : signBit a ≠ signBit b) : fadd p a b = p.cnan := by
  simp [fadd, isNaN_of_isInf, ha, hb, hs]

theorem fmul_of_isZero_of_isInf (p : Params) (ha : isZero a = true) (hb : isInf b = true) :
    fmul p a b = p.cnan ∧ fmul p b a = p.cnan := by
  simp [fmul, isNaN_of_isZero, isNaN_of_isInf, ha, hb]

theorem fdiv_of_isZero_of_isZero (p : Params) (ha : isZero a = true) (hb : isZero b = true) :
    fdiv p a b = p.cnan := by
  simp [fdiv, isNaN_of_isZero, ha, hb]

theorem fdiv_of_isInf_of_isInf (p : Params) (ha : isInf a = true) (hb : isInf b = true) : fdiv p a b = p.cnan := by
  simp [fdiv, isNaN_of_isInf, ha, hb]

/-- The two operands of the addition differ in sign, so the zero sum is `+0` (R85, R86). -/
theorem fsub_self_of_isFinite (p : Params) (h : isFinite a = true) : fsub p a a = ZERO := by
  have hnan := isNaN_of_isFinite h
  have hinf := isInf_of_isFinite h
  simp [fsub, fadd, hnan, hinf]

theorem fsub_self_of_isInf (p : Params) (h : isInf a = true) : fsub p a a = p.cnan :=
  fadd_of_opposite_infinities p h (by rwa [isInf_fneg]) (by simp)

/-! ### Comparisons (R89) -/

theorem flt_iff : flt a b = true ↔ isNaN a = false ∧ isNaN b = false ∧ value a < value b := by
  simp only [flt, Bool.and_eq_true, Bool.not_eq_true', decide_eq_true_eq, and_assoc]
  rfl

theorem fle_iff : fle a b = true ↔ isNaN a = false ∧ isNaN b = false ∧ value a ≤ value b := by
  simp only [fle, Bool.and_eq_true, Bool.not_eq_true', decide_eq_true_eq, and_assoc]
  rfl

theorem feq_iff : feq a b = true ↔ isNaN a = false ∧ isNaN b = false ∧ value a = value b := by
  simp only [feq, Bool.and_eq_true, Bool.not_eq_true', decide_eq_true_eq, and_assoc]
  rfl

/-- The place of an infinity is at the end of the values' range. -/
theorem magnitude_of_isInf (h : isInf a = true) : magnitude a = 2 ^ 277 := by
  obtain ⟨he, hm⟩ := (isInf_iff a).1 h
  rw [magnitude, he, hm, if_neg (by decide)]
  exact (pow_add 2 23 254).symm

theorem abs_value (w : Word) : |value w| = magnitude w := by
  rw [Int.abs_eq_natAbs, value_natAbs]

/-- A finite value lies between the places of the infinities. -/
theorem abs_value_lt_of_isFinite (h : isFinite a = true) : |value a| < 2 ^ 277 := by
  rw [abs_value]
  exact_mod_cast magnitude_lt_of_isFinite h

theorem value_pinf : value PINF = 2 ^ 277 := by
  rw [value_of_signBit_false (by decide), magnitude_of_isInf (by decide)]
  exact Nat.cast_pow 2 277

theorem value_ninf : value NINF = -2 ^ 277 := by
  rw [value_of_signBit_true (by decide), magnitude_of_isInf (by decide)]
  exact congrArg Neg.neg (Nat.cast_pow 2 277)

theorem flt_pinf_of_isFinite (h : isFinite a = true) : flt a PINF = true := by
  rw [flt_iff, value_pinf]
  exact ⟨isNaN_of_isFinite h, by decide, (abs_lt.1 (abs_value_lt_of_isFinite h)).2⟩

theorem flt_ninf_of_isFinite (h : isFinite a = true) : flt NINF a = true := by
  rw [flt_iff, value_ninf]
  exact ⟨by decide, isNaN_of_isFinite h, (abs_lt.1 (abs_value_lt_of_isFinite h)).1⟩

end

/-! ### Conversions (R91) -/

/-- An integer of at most 24 bits is the value of its word (R91, R99). -/
theorem i2f_exact {p : Params} (hp : p.rounding = tiesToEven) {n : Int} (h : n.natAbs < 2 ^ 24) :
    isFinite (i2f p n) = true ∧ value (i2f p n) = n * 2 ^ 149 := by
  by_cases h0 : n = 0
  · rw [i2f, if_pos h0, h0, zero_mul]
    decide
  · have hv : n.natAbs * 2 ^ 149 < 2 ^ 277 :=
      lt_trans (Nat.mul_lt_mul_of_pos_right h (Nat.two_pow_pos 149))
        (by rw [← pow_add]; exact Nat.pow_lt_pow_right (by norm_num) (by norm_num))
    have hw : i2f p n = ofMagnitude (signOf n) (n.natAbs * 2 ^ 149) := by
      have hround := round32_exact (signOf n) (k := 149) h Nat.one_pos
      rw [Nat.mul_one] at hround
      rw [i2f, if_neg h0, hp, hround]
    have hmag := magnitude_ofMagnitude (signOf n) h hv
    have hsign := signBit_ofMagnitude (signOf n) (n.natAbs * 2 ^ 149)
    rw [hw]
    refine ⟨isFinite_ofMagnitude _ hv, ?_⟩
    obtain hneg | hpos := lt_or_ge n 0
    · rw [value_of_signBit_true (hsign.trans (decide_eq_true hneg)), hmag]
      push_cast
      rw [abs_of_neg hneg, neg_mul, neg_neg]
    · rw [value_of_signBit_false (hsign.trans (decide_eq_false hpos.not_gt)), hmag]
      push_cast
      rw [abs_of_nonneg hpos]

/-! ### The magic subtraction (R95, R150) -/

theorem invSqrtEstimate_toNat (a : Word) :
    (invSqrtEstimate params a).toNat = (2 ^ 32 - a.toNat / 2 + 0x5F375A86) % 2 ^ 32 := by
  rw [invSqrtEstimate, sub32, BitVec.toNat_sub, BitVec.toNat_ushiftRight, Nat.shiftRight_eq_div_pow, pow_one]
  rfl

end Sys2Proof.Machine

open Sys2Proof Sys2Proof.Machine Sys2Proof.Config

/-- Settles O6: the magnitude of a rounded real is the nearest whole number of quanta (`round32_of_lt`), and no
magnitude of 24 significant bits is nearer (`quanta_nearest`). -/
theorem roundingIsToNearestTiesToEven : Obligations.RoundingIsToNearestTiesToEven := by
  intro s N D hD
  rw [params_rounding]
  refine ⟨signBit_round32 _ s N D, round32_of_ge s hD, fun hlt => ?_⟩
  obtain ⟨hfin, hmag, hbit⟩ := round32_of_lt s hD hlt
  refine ⟨hfin, fun w _ => ?_⟩
  obtain ⟨c, k, hw, hc⟩ := magnitude_significand w
  obtain ⟨hnear, htie⟩ := quanta_nearest (N := N) (k := k) hD hc rfl rfl
  rw [hmag, hw]
  exact ⟨hnear, fun heq hne => hbit (htie heq hne)⟩

/-- Settles O7: one lemma per primitive for a NaN operand, and one per invalid operation; the default `CNAN` is
0x7FC00000. -/
theorem invalidOperationsGiveTheCanonicalNaN : Obligations.InvalidOperationsGiveTheCanonicalNaN := by
  refine fun a b => ⟨fun h => ⟨?_, ?_, ?_, ?_⟩, ?_, ?_, ?_, ?_⟩
  · exact fadd_of_isNaN params h
  · exact fsub_of_isNaN params h
  · exact fmul_of_isNaN params h
  · exact fdiv_of_isNaN params h
  · exact fadd_of_opposite_infinities params
  · exact fmul_of_isZero_of_isInf params
  · exact fdiv_of_isZero_of_isZero params
  · exact fdiv_of_isInf_of_isInf params

/-- Settles O8: the first clause is the definition of `fsub`; in the others the negated operand has the same class
and the other sign. -/
theorem subtractionIsAdditionOfTheNegatedWord : Obligations.SubtractionIsAdditionOfTheNegatedWord :=
  ⟨fun _ _ _ => rfl, fun p _ => fsub_self_of_isFinite p, fun _ _ h => fsub_of_isNaN params (.inr h),
    fun _ => fsub_self_of_isInf params⟩

/-- Settles O9: a comparison is that of the values of words that are not NaNs (`flt_iff`, `fle_iff`, `feq_iff`), and
an infinity lies beyond every finite value. -/
theorem comparisonsOrderTheWords : Obligations.ComparisonsOrderTheWords := by
  refine fun a b => ⟨fun h => ?_, fun ha hb => ?_, fun ha hb => ?_, by decide, fun ha => ?_, ?_⟩
  · obtain h | h := h <;> simp [flt, fle, feq, h]
  · simp only [flt_iff, fle_iff, feq_iff, ha, hb, true_and]
    omega
  · simp [flt_iff, feq_iff, isNaN_of_isFinite ha, isNaN_of_isFinite hb]
  · exact ⟨flt_ninf_of_isFinite ha, flt_pinf_of_isFinite ha⟩
  · have hlt : value NINF < value PINF := by
      rw [value_ninf, value_pinf]
      exact neg_lt_self (by positivity)
    exact flt_iff.2 ⟨by decide, by decide, hlt⟩

/-- Settles O25: the estimate as a number (`invSqrtEstimate_toNat`), on either side of the wrap. -/
theorem magicSubtractionWrapsFromOneWordOn : Obligations.MagicSubtractionWrapsFromOneWordOn := by
  intro a
  have ha := a.isLt
  rw [invSqrtEstimate_toNat]
  exact ⟨by omega, fun hlow => by omega, fun hhigh => by omega⟩

/-- Settles O10: integers of up to 24 bits convert exactly (`i2f_exact`), and `toint` divides the unit out again. -/
theorem smallIntegersConvertExactly : Obligations.SmallIntegersConvertExactly := by
  refine ⟨rfl, fun n hlo hhi => ?_⟩
  obtain ⟨hfin, hval⟩ := i2f_exact params_rounding (n := n) (by omega)
  refine ⟨hfin, hval, ?_⟩
  rw [toInt, hval]
  exact Int.mul_ediv_cancel n (by positivity)

end

/-! PROOFS of the statements of `41_bit_decompose.md`: a getter reads one of the three fields of a word, and a setter
makes the word of two of its fields and a new third (R110 to R121). -/
section
namespace Sys2Proof.Machine

/-! ### Fields -/

/-- The one-bit slice of a word is that bit. -/
theorem extractLsb'_one (w : Word) (i : Nat) : w.extractLsb' i 1 = BitVec.ofBool (w.getLsbD i) := by
  ext j hj
  obtain rfl : j = 0 := by omega
  simp

theorem signBit_toNat (w : Word) : (signBit w).toNat = w.toNat / 2 ^ 31 := by
  have hw := w.isLt
  rw [signBit_eq]
  by_cases h : 2 ^ 31 ≤ w.toNat
  · rw [decide_eq_true h, Bool.toNat_true]; omega
  · rw [decide_eq_false h, Bool.toNat_false]; omega

/-- The exponent field stands above the mantissa field. -/
theorem low31_eq_append (w : Word) : w.extractLsb' 0 31 = expBits w ++ mantBits w :=
  (BitVec.extractLsb'_append_extractLsb'_eq_extractLsb' (start₂ := 23) (len₁ := 23) (len₂ := 8) rfl).symm

/-- The sign stands above the exponent field. -/
theorem high9_eq_append (w : Word) : w.extractLsb' 23 9 = BitVec.ofBool (signBit w) ++ expBits w := by
  rw [signBit, ← extractLsb'_one]
  exact (BitVec.extractLsb'_append_extractLsb'_eq_extractLsb' (start₂ := 31) (len₁ := 8) (len₂ := 1) rfl).symm

/-! ### Reads: a field as an integer (R111 to R114) -/

theorem opGetSign_eq_signBit (w : Word) : opGetSign w = (BitVec.ofBool (signBit w)).setWidth 32 := by
  rw [opGetSign, extractLsb'_one, signBit]

theorem opGetSign_toNat (w : Word) : (opGetSign w).toNat = w.toNat / 2 ^ 31 := by
  rw [opGetSign_eq_signBit, BitVec.toNat_setWidth_of_le (by decide), BitVec.toNat_ofBool, signBit_toNat]

theorem opGetExp_toNat (w : Word) : (opGetExp w).toNat = w.toNat / 2 ^ 23 % 2 ^ 8 := by
  rw [opGetExp, BitVec.toNat_setWidth_of_le (by decide), expBits_toNat]

theorem opGetMant_toNat (w : Word) : (opGetMant w).toNat = w.toNat % 2 ^ 23 := by
  rw [opGetMant, BitVec.toNat_setWidth_of_le (by decide), mantBits_toNat]

/-- An exponent field minus 127 lies well within the two's complement integers of a word (R113). -/
theorem opGetExpV_toInt (w : Word) : (opGetExpV w).toInt = expValue w := by
  have he := (expBits w).isLt
  rw [opGetExpV, BitVec.toInt_ofInt, expValue]
  exact Int.bmod_eq_of_le (by omega) (by omega)

/-- The integer subtraction of R113 is that of words. -/
theorem opGetExpV_eq_sub (w : Word) : opGetExpV w = opGetExp w - 127#32 := by
  have he := (expBits w).isLt
  have hexp : (opGetExp w).toNat = (expBits w).toNat := by rw [opGetExp_toNat, expBits_toNat]
  apply BitVec.eq_of_toNat_eq
  rw [opGetExpV, BitVec.toNat_ofInt, BitVec.toNat_sub, expValue, hexp, BitVec.toNat_ofNat]
  omega

/-! ### The field in the low bits of a read -/

theorem getLsbD_zero_opGetSign (w : Word) : (opGetSign w).getLsbD 0 = signBit w := by
  simp [opGetSign_eq_signBit]

theorem extractLsb'_opGetExp (w : Word) : (opGetExp w).extractLsb' 0 8 = expBits w := by
  rw [opGetExp, BitVec.extractLsb'_setWidth_of_le (by decide), BitVec.extractLsb'_eq_self]

theorem extractLsb'_opGetMant (w : Word) : (opGetMant w).extractLsb' 0 23 = mantBits w := by
  rw [opGetMant, BitVec.extractLsb'_setWidth_of_le (by decide), BitVec.extractLsb'_eq_self]

/-! ### Writes: the word of the fields (R115 to R118) -/

theorem opSetSign_eq_ofFields (a b : Word) : opSetSign a b = ofFields (b.getLsbD 0) (expBits a) (mantBits a) := by
  rw [opSetSign, extractLsb'_one, low31_eq_append, ofFields, BitVec.append_assoc]
  rfl

theorem opSetExp_eq_ofFields (a b : Word) :
    opSetExp a b = ofFields (signBit a) (b.extractLsb' 0 8) (mantBits a) := by
  rw [opSetExp, extractLsb'_one, ofFields, signBit, mantBits]

theorem opSetMant_eq_ofFields (a b : Word) :
    opSetMant a b = ofFields (signBit a) (expBits a) (b.extractLsb' 0 23) := by
  rw [opSetMant, high9_eq_append, ofFields]

theorem opNorm12_eq_opSetExp (a : Word) : opNorm12 a = opSetExp a 127#32 := rfl

theorem opSetSign_toNat (a b : Word) : (opSetSign a b).toNat = b.toNat % 2 * 2 ^ 31 + a.toNat % 2 ^ 31 := by
  have hbit : (b.getLsbD 0).toNat = b.toNat % 2 := by
    rw [← BitVec.toNat_ofBool, ← extractLsb'_one, BitVec.extractLsb'_toNat, Nat.shiftRight_zero, pow_one]
  rw [opSetSign_eq_ofFields, ofFields_toNat, hbit, expBits_toNat, mantBits_toNat]
  omega

theorem opSetExp_toNat (a b : Word) : (opSetExp a b).toNat =
    a.toNat / 2 ^ 31 * 2 ^ 31 + b.toNat % 2 ^ 8 * 2 ^ 23 + a.toNat % 2 ^ 23 := by
  rw [opSetExp_eq_ofFields, ofFields_toNat, signBit_toNat, BitVec.extractLsb'_toNat, Nat.shiftRight_zero,
    mantBits_toNat]

theorem opSetMant_toNat (a b : Word) :
    (opSetMant a b).toNat = a.toNat / 2 ^ 23 * 2 ^ 23 + b.toNat % 2 ^ 23 := by
  have ha := a.isLt
  rw [opSetMant_eq_ofFields, ofFields_toNat, signBit_toNat, expBits_toNat, BitVec.extractLsb'_toNat,
    Nat.shiftRight_zero]
  omega

theorem opNorm12_toNat (a : Word) : (opNorm12 a).toNat =
    a.toNat / 2 ^ 31 * 2 ^ 31 + 127 * 2 ^ 23 + a.toNat % 2 ^ 23 := by
  rw [opNorm12_eq_opSetExp, opSetExp_toNat]
  rfl

/-! ### Reads of written fields (R121) -/

/-- A read gives the field that the word was made with. -/
@[simp] theorem opGetSign_ofFields (s : Bool) (e : BitVec 8) (m : BitVec 23) :
    opGetSign (ofFields s e m) = (BitVec.ofBool s).setWidth 32 := by
  rw [opGetSign_eq_signBit, signBit_ofFields]

@[simp] theorem opGetExp_ofFields (s : Bool) (e : BitVec 8) (m : BitVec 23) :
    opGetExp (ofFields s e m) = e.setWidth 32 := by
  rw [opGetExp, expBits_ofFields]

@[simp] theorem opGetMant_ofFields (s : Bool) (e : BitVec 8) (m : BitVec 23) :
    opGetMant (ofFields s e m) = m.setWidth 32 := by
  rw [opGetMant, mantBits_ofFields]

/-- The three fields read from a word rebuild it, whatever word they are written into. -/
theorem setFields_getFields (v w : Word) :
    opSetSign (opSetExp (opSetMant v (opGetMant w)) (opGetExp w)) (opGetSign w) = w := by
  rw [opSetSign_eq_ofFields, opSetExp_eq_ofFields, expBits_ofFields, mantBits_ofFields, opSetMant_eq_ofFields,
    mantBits_ofFields, getLsbD_zero_opGetSign, extractLsb'_opGetExp, extractLsb'_opGetMant, ofFields_eta]

end Sys2Proof.Machine

open Sys2Proof.Machine

/-- Settles O11: each read answers with its result (O43), which as a number is the field. -/
theorem fieldReadsReturnTheFields : Obligations.FieldReadsReturnTheFields := by
  have hanswers := everyInstructionAnswersOnce
  refine fun a s => ⟨hanswers (.pass a) s, ⟨_, hanswers (.getsign a) s, opGetSign_toNat a⟩,
    ⟨_, hanswers (.getexp a) s, opGetExp_toNat a⟩, ⟨_, hanswers (.getexpv a) s, ?_⟩,
    ⟨_, hanswers (.getmant a) s, opGetMant_toNat a⟩⟩
  rw [← expBits_toNat]
  exact opGetExpV_toInt a

/-- Settles O12: each write answers with its result (O43), which is the word of two fields of `a` and a new third. -/
theorem fieldWritesChangeOneField : Obligations.FieldWritesChangeOneField := by
  have hanswers := everyInstructionAnswersOnce
  exact fun a b s => ⟨⟨_, hanswers (.setsign a b) s, opSetSign_toNat a b⟩,
    ⟨_, hanswers (.setexp a b) s, opSetExp_toNat a b⟩, ⟨_, hanswers (.setmant a b) s, opSetMant_toNat a b⟩,
    ⟨_, hanswers (.norm12 a) s, opNorm12_toNat a⟩⟩

/-- Settles O13: a setter makes the word of its fields (`opSetExp_eq_ofFields` and its like), and a getter reads from
such a word the field it was made with. -/
theorem fieldsRoundTripAndAreIndependent : Obligations.FieldsRoundTripAndAreIndependent := by
  refine fun w v => ⟨setFields_getFields 0#32 w, ?_, ?_, ?_, opGetExpV_eq_sub w, opNorm12_eq_opSetExp w, rfl⟩
  · rw [opSetExp_eq_ofFields, opGetSign_eq_signBit w]
    exact ⟨opGetExp_ofFields .., opGetMant_ofFields .., opGetSign_ofFields ..⟩
  · rw [opSetMant_eq_ofFields, opGetSign_eq_signBit w]
    exact ⟨opGetMant_ofFields .., opGetExp_ofFields .., opGetSign_ofFields ..⟩
  · rw [opSetSign_eq_ofFields, extractLsb'_one]
    exact ⟨opGetSign_ofFields .., opGetExp_ofFields .., opGetMant_ofFields ..⟩

end

/-! PROOFS of the statements of `42_sign_round.md`: `TRUNC` clears the fraction bits, and each of the other rounding
operations is `TRUNC` or the next integer away from zero (R130 to R137). One is `2^149` units of a magnitude. -/
section
namespace Sys2Proof.Machine

open Sys2Proof.Config

/-! ### Sign operations (R130, R131) -/

theorem opAbs_eq_ofFields (a : Word) : opAbs a = ofFields false (expBits a) (mantBits a) := by
  apply eq_of_fields <;> simp [show opAbs a = fabs a from rfl]

theorem opCopySign_eq_ofFields (a b : Word) : opCopySign a b = ofFields (signBit b) (expBits a) (mantBits a) := by
  rw [opCopySign, extractLsb'_one, low31_eq_append, ofFields, BitVec.append_assoc]
  rfl

theorem opAbs_toNat (a : Word) : (opAbs a).toNat = a.toNat % 2 ^ 31 := by
  rw [opAbs_eq_ofFields, ofFields_toNat, expBits_toNat, mantBits_toNat, Bool.toNat_false]
  omega

theorem opCopySign_toNat (a b : Word) :
    (opCopySign a b).toNat = b.toNat / 2 ^ 31 * 2 ^ 31 + a.toNat % 2 ^ 31 := by
  rw [opCopySign_eq_ofFields, ofFields_toNat, signBit_toNat, expBits_toNat, mantBits_toNat]
  omega

@[simp] theorem signBit_opCopySign (a b : Word) : signBit (opCopySign a b) = signBit b := by
  rw [opCopySign_eq_ofFields, signBit_ofFields]

@[simp] theorem magnitude_opCopySign (a b : Word) : magnitude (opCopySign a b) = magnitude a := by
  simp [opCopySign_eq_ofFields, magnitude]

@[simp] theorem isFinite_opCopySign (a b : Word) : isFinite (opCopySign a b) = isFinite a := by
  simp [opCopySign_eq_ofFields, isFinite]

@[simp] theorem isNaN_opCopySign (a b : Word) : isNaN (opCopySign a b) = isNaN a := by
  simp [opCopySign_eq_ofFields, isNaN]

/-- `ABS` does not see the sign that `COPYSIGN` wrote (R137). -/
theorem opAbs_opCopySign (a b : Word) : opAbs (opCopySign a b) = opAbs a := by
  simp [opAbs_eq_ofFields, opCopySign_eq_ofFields]

/-- `GETSIGN` reads the sign that `COPYSIGN` wrote (R137). -/
theorem opGetSign_opCopySign (a b : Word) : opGetSign (opCopySign a b) = opGetSign b := by
  rw [opGetSign_eq_signBit, opGetSign_eq_signBit, signBit_opCopySign]

/-! ### Signs, magnitudes and values -/

/-- Two finite words of the same sign and magnitude are the same word (R81). -/
theorem eq_of_sign_magnitude {v w : Word} (hv : isFinite v = true) (hw : isFinite w = true)
    (hs : signBit v = signBit w) (hm : magnitude v = magnitude w) : v = w := by
  rw [← ofMagnitude_magnitude hv, ← ofMagnitude_magnitude hw, hs, hm]

/-- The values of words of one sign add up as their magnitudes do. -/
theorem value_add_of_same_sign {a b c : Word} (ha : signBit a = signBit c) (hb : signBit b = signBit c)
    (h : magnitude a + magnitude b = magnitude c) : value a + value b = value c := by
  simp only [value, ha, hb, ← h]
  cases signBit c <;> simp
  ring

/-- The magnitude of a normal word (R81). -/
theorem magnitude_of_exponent_pos {a : Word} (h : 0 < (expBits a).toNat) :
    magnitude a = (2 ^ 23 + (mantBits a).toNat) * 2 ^ ((expBits a).toNat - 1) := by
  rw [magnitude, if_neg fun h0 => by simp [h0] at h]

/-- The magnitude of a power of two (R81). -/
theorem magnitude_of_mantBits_zero {w : Word} (he : 0 < (expBits w).toNat) (hm : mantBits w = 0#23) :
    magnitude w = 2 ^ (22 + (expBits w).toNat) := by
  rw [magnitude_of_exponent_pos he, hm, BitVec.toNat_zero, Nat.add_zero, ← pow_add]
  congr 1
  omega

theorem magnitude_ONE : magnitude ONE = 2 ^ 149 := magnitude_of_mantBits_zero (by decide) (by decide)

theorem magnitude_HALF : magnitude HALF = 2 ^ 148 := magnitude_of_mantBits_zero (by decide) (by decide)

/-- Below the exponent of one a magnitude is below one (R81). -/
theorem magnitude_lt_one_of_expBits_lt {a : Word} (h : (expBits a).toNat < 127) : magnitude a < 2 ^ 149 := by
  have hm := (mantBits a).isLt
  rw [magnitude]
  split
  · exact lt_trans hm (by norm_num)
  · calc (2 ^ 23 + (mantBits a).toNat) * 2 ^ ((expBits a).toNat - 1)
        < 2 ^ 24 * 2 ^ ((expBits a).toNat - 1) := Nat.mul_lt_mul_of_pos_right (by omega) (Nat.two_pow_pos _)
      _ ≤ 2 ^ 24 * 2 ^ 125 := Nat.mul_le_mul_left _ (Nat.pow_le_pow_right (by norm_num) (by omega))
      _ = 2 ^ 149 := by norm_num

/-- Below one a magnitude keeps at most 24 significant bits (R135). -/
theorem magnitude_mod_significand (w : Word) : ∃ c k, magnitude w % 2 ^ 149 = c * 2 ^ k ∧ c < 2 ^ 24 := by
  obtain ⟨c, k, hm, hc⟩ := magnitude_significand w
  rw [hm]
  obtain hk | hk := le_total 149 k
  · exact ⟨0, 0, by rw [Nat.mod_eq_zero_of_dvd (Dvd.dvd.mul_left (pow_dvd_pow 2 hk) c), zero_mul], by norm_num⟩
  · refine ⟨c % 2 ^ (149 - k), k, ?_, lt_of_le_of_lt (Nat.mod_le _ _) hc⟩
    rw [← Nat.mul_mod_mul_right, ← pow_add, Nat.sub_add_cancel hk]

/-- A magnitude with a fraction is below `2^23` (R133). -/
theorem magnitude_div_lt_of_fraction {w : Word} (h : magnitude w % 2 ^ 149 ≠ 0) :
    magnitude w / 2 ^ 149 < 2 ^ 23 := by
  obtain ⟨c, k, hm, hc⟩ := magnitude_significand w
  have hk : k < 149 := by
    by_contra hk
    exact h (by rw [hm, Nat.mod_eq_zero_of_dvd (Dvd.dvd.mul_left (pow_dvd_pow 2 (not_lt.1 hk)) c)])
  rw [Nat.div_lt_iff_lt_mul (Nat.two_pow_pos 149), hm]
  calc c * 2 ^ k < 2 ^ 24 * 2 ^ k := Nat.mul_lt_mul_of_pos_right hc (Nat.two_pow_pos k)
    _ ≤ 2 ^ 24 * 2 ^ 148 := Nat.mul_le_mul_left _ (Nat.pow_le_pow_right (by norm_num) (by omega))
    _ = 2 ^ 23 * 2 ^ 149 := by norm_num

/-! ### TRUNC (R132) -/

/-- The mask of `TRUNC` clears the bits below bit `k`. -/
theorem getLsbD_clear_low (a : Word) {k i : Nat} (hk : k ≤ 23) (hi : i < 32) :
    (a &&& ~~~((1#32 <<< k) - 1#32)).getLsbD i = (a.getLsbD i && decide (k ≤ i)) := by
  have hlt : 2 ^ k ≤ 2 ^ 23 := Nat.pow_le_pow_right (by norm_num) hk
  have hpos := Nat.two_pow_pos k
  have hmask : ((1#32 <<< k) - 1#32).toNat = 2 ^ k - 1 := by
    have hshift : (1#32 <<< k).toNat = 2 ^ k := by
      rw [BitVec.toNat_shiftLeft, Nat.shiftLeft_eq, BitVec.toNat_ofNat, Nat.mod_eq_of_lt] <;> omega
    rw [BitVec.toNat_sub, hshift, BitVec.toNat_ofNat]
    omega
  rw [BitVec.getLsbD_and, BitVec.getLsbD_not, ← BitVec.testBit_toNat ((1#32 <<< k) - 1#32), hmask,
    Nat.testBit_two_pow_sub_one]
  by_cases hki : k ≤ i
  · simp [hki, hi, not_lt.2 hki]
  · simp [hki, hi, not_le.1 hki]

/-- What `TRUNC` can do: below one it keeps only the sign, from `2^23` on it changes nothing, and between them it
clears the fraction bits of the mantissa. -/
theorem opTrunc_cases (a : Word) :
    ((expBits a).toNat < 127 ∧ opTrunc a = ofFields (signBit a) 0#8 0#23) ∨
    (150 ≤ (expBits a).toNat ∧ opTrunc a = a) ∨
    ∃ k, (expBits a).toNat + k = 150 ∧ k ≤ 23 ∧
      opTrunc a = ofFields (signBit a) (expBits a) ((mantBits a >>> k) <<< k) := by
  unfold opTrunc
  split_ifs with hneg hbig <;> rw [expValue] at *
  · exact .inl ⟨by omega, rfl⟩
  · exact .inr (.inl ⟨by omega, rfl⟩)
  · refine .inr (.inr ⟨(23 - ((expBits a).toNat - 127 : Int)).toNat, by omega, by omega, ?_⟩)
    have hk : (23 - ((expBits a).toNat - 127 : Int)).toNat ≤ 23 := by omega
    generalize (23 - ((expBits a).toNat - 127 : Int)).toNat = k at *
    apply eq_of_fields
    · rw [signBit_ofFields, signBit, getLsbD_clear_low a hk (by norm_num), signBit]
      simp; omega
    · rw [expBits_ofFields]
      apply BitVec.eq_of_getLsbD_eq
      intro i hi
      have hbit := getLsbD_clear_low a hk (show 23 + i < 32 by omega)
      rw [decide_eq_true (show k ≤ 23 + i by omega), Bool.and_true] at hbit
      rw [expBits, expBits, BitVec.getLsbD_extractLsb', BitVec.getLsbD_extractLsb', hbit]
    · rw [mantBits_ofFields]
      apply BitVec.eq_of_getLsbD_eq
      intro i hi
      have hbit := getLsbD_clear_low a hk (show 0 + i < 32 by omega)
      rw [mantBits, mantBits, BitVec.getLsbD_extractLsb', hbit]
      by_cases hki : k ≤ i
      · simp [hi, hki, not_lt.2 hki]
      · simp [hki, not_le.1 hki]

@[simp] theorem signBit_opTrunc (a : Word) : signBit (opTrunc a) = signBit a := by
  obtain ⟨-, h⟩ | ⟨-, h⟩ | ⟨k, -, -, h⟩ := opTrunc_cases a <;> simp [h]

theorem isFinite_opTrunc {a : Word} (h : isFinite a = true) : isFinite (opTrunc a) = true := by
  obtain ⟨-, ht⟩ | ⟨-, ht⟩ | ⟨k, -, -, ht⟩ := opTrunc_cases a
  · simp [ht, isFinite]
  · rwa [ht]
  · simpa [ht, isFinite] using h

/-- An infinity or a NaN has no fraction bits to clear (R132). -/
theorem opTrunc_of_not_isFinite {a : Word} (h : isFinite a = false) : opTrunc a = a := by
  have hexp : expBits a = 255#8 := by simpa [isFinite] using h
  obtain ⟨he, -⟩ | ⟨-, ht⟩ | ⟨k, he, -, -⟩ := opTrunc_cases a
  · simp [hexp] at he
  · exact ht
  · simp [hexp] at he; omega

/-- `TRUNC` keeps the whole ones of the magnitude (R132). -/
theorem magnitude_opTrunc (a : Word) : magnitude (opTrunc a) = magnitude a / 2 ^ 149 * 2 ^ 149 := by
  obtain ⟨he, ht⟩ | ⟨he, ht⟩ | ⟨k, he, hk, ht⟩ := opTrunc_cases a
  · rw [ht, Nat.div_eq_of_lt (magnitude_lt_one_of_expBits_lt he)]
    simp [magnitude]
  · rw [ht, Nat.div_mul_cancel]
    rw [magnitude_of_exponent_pos (by omega)]
    exact Dvd.dvd.mul_left (pow_dvd_pow 2 (by omega)) _
  · have hmant : ((mantBits a >>> k) <<< k).toNat = (mantBits a).toNat / 2 ^ k * 2 ^ k := by
      rw [BitVec.toNat_shiftLeft, BitVec.toNat_ushiftRight, Nat.shiftLeft_eq, Nat.shiftRight_eq_div_pow]
      exact Nat.mod_eq_of_lt (lt_of_le_of_lt (Nat.div_mul_le_self _ _) (mantBits a).isLt)
    -- `2^23` is a multiple of `2^k`, so the leading bit stays where it is.
    have hlead : (2 ^ 23 + (mantBits a).toNat) / 2 ^ k * 2 ^ k = 2 ^ 23 + (mantBits a).toNat / 2 ^ k * 2 ^ k := by
      rw [Nat.add_div_of_dvd_right (pow_dvd_pow 2 hk), Nat.add_mul, Nat.div_mul_cancel (pow_dvd_pow 2 hk)]
    have hunit : 2 ^ 149 = 2 ^ k * 2 ^ ((expBits a).toNat - 1) := by rw [← pow_add]; congr 1; omega
    rw [ht, magnitude_of_exponent_pos (a := a) (by omega), magnitude_of_exponent_pos (by simp; omega)]
    rw [expBits_ofFields, mantBits_ofFields, hmant, hunit, Nat.mul_div_mul_right _ _ (Nat.two_pow_pos _),
      ← Nat.mul_assoc, hlead]

/-- `TRUNC` changes no integer (R137). -/
theorem opTrunc_of_dvd {a : Word} (h : isFinite a = true) (hd : 2 ^ 149 ∣ magnitude a) : opTrunc a = a :=
  eq_of_sign_magnitude (isFinite_opTrunc h) h (signBit_opTrunc a)
    (by rw [magnitude_opTrunc, Nat.div_mul_cancel hd])

/-! ### FRACT (R135) -/

/-- An integer has the fraction `+0`. -/
theorem opFract_of_dvd {a : Word} (h : isFinite a = true) (hd : 2 ^ 149 ∣ magnitude a) :
    opFract params a = ZERO := by
  rw [opFract, opTrunc_of_dvd h hd, fsub_self_of_isFinite params h]

/-- The fraction of a magnitude is that of a finite word. -/
theorem isFinite_magnitude_fraction (s : Bool) (w : Word) :
    isFinite (ofMagnitude s (magnitude w % 2 ^ 149)) = true ∧
      magnitude (ofMagnitude s (magnitude w % 2 ^ 149)) = magnitude w % 2 ^ 149 := by
  obtain ⟨c, k, hck, hc⟩ := magnitude_mod_significand w
  have hlt : magnitude w % 2 ^ 149 < 2 ^ 277 :=
    lt_trans (Nat.mod_lt _ (Nat.two_pow_pos 149)) (Nat.pow_lt_pow_right (by norm_num) (by norm_num))
  refine ⟨isFinite_ofMagnitude s hlt, ?_⟩
  rw [hck] at hlt ⊢
  exact magnitude_ofMagnitude s hc hlt

/-- The integer part and the fraction make the operand. -/
theorem value_opTrunc_add_fraction (a : Word) :
    value (opTrunc a) + value (ofMagnitude (signBit a) (magnitude a % 2 ^ 149)) = value a := by
  refine value_add_of_same_sign (signBit_opTrunc a) (signBit_ofMagnitude _ _) ?_
  rw [magnitude_opTrunc, (isFinite_magnitude_fraction (signBit a) a).2, Nat.div_add_mod']

/-- Any other finite word has the fraction of its magnitude, with its sign: the subtraction is exact. -/
theorem opFract_of_not_dvd {a : Word} (h : isFinite a = true) (hd : ¬2 ^ 149 ∣ magnitude a) :
    opFract params a = ofMagnitude (signBit a) (magnitude a % 2 ^ 149) := by
  obtain ⟨hfin, hmag⟩ := isFinite_magnitude_fraction (signBit a) a
  have hsum := value_opTrunc_add_fraction a
  refine fadd_exact params_rounding h ?_ hfin ?_ ?_
  · rw [isFinite_fneg]; exact isFinite_opTrunc h
  · rw [value_fneg]; omega
  · rw [Ne, value_eq_zero_iff, hmag]
    exact fun h0 => hd (Nat.dvd_of_mod_eq_zero h0)

theorem isFinite_opFract {a : Word} (h : isFinite a = true) : isFinite (opFract params a) = true := by
  by_cases hd : 2 ^ 149 ∣ magnitude a
  · rw [opFract_of_dvd h hd]; decide
  · rw [opFract_of_not_dvd h hd]; exact (isFinite_magnitude_fraction _ a).1

theorem magnitude_opFract {a : Word} (h : isFinite a = true) :
    magnitude (opFract params a) = magnitude a % 2 ^ 149 := by
  by_cases hd : 2 ^ 149 ∣ magnitude a
  · rw [opFract_of_dvd h hd, Nat.mod_eq_zero_of_dvd hd]; decide
  · rw [opFract_of_not_dvd h hd]; exact (isFinite_magnitude_fraction _ a).2

/-- `TRUNC` and `FRACT` divide the value exactly (R135). -/
theorem value_opTrunc_add_opFract {a : Word} (h : isFinite a = true) :
    value (opTrunc a) + value (opFract params a) = value a := by
  by_cases hd : 2 ^ 149 ∣ magnitude a
  · rw [opFract_of_dvd h hd, opTrunc_of_dvd h hd, show value ZERO = 0 by decide, add_zero]
  · rw [opFract_of_not_dvd h hd]
    exact value_opTrunc_add_fraction a

/-- A word that is neither finite nor a NaN is an infinity (R81). -/
theorem isInf_of_not_isFinite {a : Word} (hfin : isFinite a = false) (hnan : isNaN a = false) : isInf a = true := by
  have hexp : expBits a = 255#8 := by simpa [isFinite] using hfin
  exact (isInf_iff a).2 ⟨hexp, by simpa [isNaN, hexp] using hnan⟩

/-- An infinity or a NaN has no fraction: the subtraction is invalid (R135). -/
theorem opFract_of_not_isFinite {a : Word} (h : isFinite a = false) : opFract params a = CNAN := by
  rw [opFract, opTrunc_of_not_isFinite h]
  cases hnan : isNaN a
  · exact fsub_self_of_isInf params (isInf_of_not_isFinite h hnan)
  · exact fsub_of_isNaN params (.inl hnan)

/-- The sum of two finite words whose value a finite word has, zero or not, has that value (R85). -/
theorem value_fadd_of_value_eq {a b c : Word} (ha : isFinite a = true) (hb : isFinite b = true)
    (hc : isFinite c = true) (h : value a + value b = value c) : value (fadd params a b) = value c := by
  by_cases h0 : value c = 0
  · rw [fadd, if_neg (by simp [isNaN_of_isFinite ha, isNaN_of_isFinite hb]),
      if_neg (by simp [isInf_of_isFinite ha]), if_neg (by simp [isInf_of_isFinite ha]),
      if_neg (by simp [isInf_of_isFinite hb]), if_neg (by simp [h, h0]), h0]
    split <;> decide
  · rw [fadd_exact params_rounding ha hb hc h h0]

/-! ### FLOOR, CEIL and ROUND (R133, R134, R136) -/

/-- `r` is the word of sign `s` whose magnitude is the integer `n`. -/
structure IsIntegerWord (r : Word) (s : Bool) (n : Nat) : Prop where
  isFinite_eq : isFinite r = true
  signBit_eq : signBit r = s
  magnitude_eq : magnitude r = n * 2 ^ 149

theorem IsIntegerWord.value_eq {r : Word} {s : Bool} {n : Nat} (h : IsIntegerWord r s n) :
    value r = (if s then -(n : Int) else n) * 2 ^ 149 := by
  rw [value, h.signBit_eq, h.magnitude_eq]
  split <;> simp

theorem IsIntegerWord.opTrunc_eq {r : Word} {s : Bool} {n : Nat} (h : IsIntegerWord r s n) : opTrunc r = r :=
  opTrunc_of_dvd h.isFinite_eq (h.magnitude_eq ▸ Dvd.intro_left n rfl)

theorem isIntegerWord_opTrunc {a : Word} (h : isFinite a = true) :
    IsIntegerWord (opTrunc a) (signBit a) (magnitude a / 2 ^ 149) :=
  ⟨isFinite_opTrunc h, signBit_opTrunc a, magnitude_opTrunc a⟩

/-- The next integer away from zero is reached by an exact addition, because a fraction leaves the integer part below
`2^23` (R133). -/
theorem isIntegerWord_fadd_one {a : Word} (h : isFinite a = true) (hf : ¬2 ^ 149 ∣ magnitude a) :
    IsIntegerWord (fadd params (opTrunc a) (opCopySign ONE a)) (signBit a) (magnitude a / 2 ^ 149 + 1) := by
  have hn : magnitude a / 2 ^ 149 + 1 < 2 ^ 24 := by
    have := magnitude_div_lt_of_fraction fun h0 => hf (Nat.dvd_of_mod_eq_zero h0)
    omega
  have hlt : (magnitude a / 2 ^ 149 + 1) * 2 ^ 149 < 2 ^ 277 :=
    lt_trans (Nat.mul_lt_mul_of_pos_right hn (Nat.two_pow_pos 149))
      (by rw [← pow_add]; exact Nat.pow_lt_pow_right (by norm_num) (by norm_num))
  have hnext : IsIntegerWord (ofMagnitude (signBit a) ((magnitude a / 2 ^ 149 + 1) * 2 ^ 149)) (signBit a)
      (magnitude a / 2 ^ 149 + 1) :=
    ⟨isFinite_ofMagnitude _ hlt, signBit_ofMagnitude _ _, magnitude_ofMagnitude _ hn hlt⟩
  generalize ofMagnitude (signBit a) ((magnitude a / 2 ^ 149 + 1) * 2 ^ 149) = c at hnext
  have hsum : value (opTrunc a) + value (opCopySign ONE a) = value c := by
    apply value_add_of_same_sign
    · rw [signBit_opTrunc, hnext.signBit_eq]
    · rw [signBit_opCopySign, hnext.signBit_eq]
    · rw [magnitude_opTrunc, magnitude_opCopySign, magnitude_ONE, hnext.magnitude_eq]; ring
  have hne : value c ≠ 0 := by
    rw [Ne, value_eq_zero_iff, hnext.magnitude_eq]
    positivity
  have hone : isFinite (opCopySign ONE a) = true := by rw [isFinite_opCopySign]; decide
  rwa [fadd_exact params_rounding (isFinite_opTrunc h) hone hnext.isFinite_eq hsum hne]

/-- The comparison of `FLOOR`: the operand is negative and no integer. -/
theorem flt_opTrunc_right_iff {a : Word} (h : isFinite a = true) :
    flt a (opTrunc a) = true ↔ signBit a = true ∧ ¬2 ^ 149 ∣ magnitude a := by
  simp only [flt_iff, isNaN_of_isFinite h, isNaN_of_isFinite (isFinite_opTrunc h), value, signBit_opTrunc,
    magnitude_opTrunc]
  cases signBit a <;> simp <;> omega

/-- The comparison of `CEIL`: the operand is positive and no integer. -/
theorem flt_opTrunc_left_iff {a : Word} (h : isFinite a = true) :
    flt (opTrunc a) a = true ↔ signBit a = false ∧ ¬2 ^ 149 ∣ magnitude a := by
  simp only [flt_iff, isNaN_of_isFinite h, isNaN_of_isFinite (isFinite_opTrunc h), value, signBit_opTrunc,
    magnitude_opTrunc]
  cases signBit a <;> simp <;> omega

/-- The comparison of `ROUND`: the fraction of the magnitude is at least one half. -/
theorem fle_half_opFract_iff {a : Word} (h : isFinite a = true) :
    fle HALF (fabs (opFract params a)) = true ↔ 2 ^ 148 ≤ magnitude a % 2 ^ 149 := by
  have hhalf : value HALF = 2 ^ 148 := by
    rw [value_of_signBit_false (by decide), magnitude_HALF]
    exact Nat.cast_pow 2 148
  rw [fle_iff, isNaN_fabs, value_fabs, hhalf, magnitude_opFract h]
  simp only [isNaN_of_isFinite (isFinite_opFract h), show isNaN HALF = false by decide, true_and]
  omega

/-- One with the sign of `a`, by that sign. -/
theorem opCopySign_ONE (a : Word) : opCopySign ONE a = if signBit a then fneg ONE else ONE := by
  rw [opCopySign_eq_ofFields]
  cases signBit a <;> decide

/-- `FLOOR` rounds the magnitude of a negative operand up and that of a positive one down. -/
theorem isIntegerWord_opFloor {a : Word} (h : isFinite a = true) :
    IsIntegerWord (opFloor params a) (signBit a)
      (if signBit a then (magnitude a + (2 ^ 149 - 1)) / 2 ^ 149 else magnitude a / 2 ^ 149) := by
  rw [opFloor]
  by_cases hlt : flt a (opTrunc a) = true
  · obtain ⟨hs, hd⟩ := (flt_opTrunc_right_iff h).1 hlt
    have hone : fneg ONE = opCopySign ONE a := by rw [opCopySign_ONE, if_pos hs]
    rw [if_pos hlt, fsub, hone, if_pos hs,
      show (magnitude a + (2 ^ 149 - 1)) / 2 ^ 149 = magnitude a / 2 ^ 149 + 1 by omega]
    exact isIntegerWord_fadd_one h hd
  · rw [if_neg hlt]
    rw [flt_opTrunc_right_iff h, not_and, not_not] at hlt
    convert isIntegerWord_opTrunc h using 1
    split
    · next hs => have := hlt hs; omega
    · rfl

/-- `CEIL` rounds the magnitude of a negative operand down and that of a positive one up. -/
theorem isIntegerWord_opCeil {a : Word} (h : isFinite a = true) :
    IsIntegerWord (opCeil params a) (signBit a)
      (if signBit a then magnitude a / 2 ^ 149 else (magnitude a + (2 ^ 149 - 1)) / 2 ^ 149) := by
  rw [opCeil]
  by_cases hlt : flt (opTrunc a) a = true
  · obtain ⟨hs, hd⟩ := (flt_opTrunc_left_iff h).1 hlt
    have hone : ONE = opCopySign ONE a := by rw [opCopySign_ONE, if_neg (by simp [hs])]
    rw [if_pos hlt, hone, if_neg (by simp [hs]),
      show (magnitude a + (2 ^ 149 - 1)) / 2 ^ 149 = magnitude a / 2 ^ 149 + 1 by omega]
    exact isIntegerWord_fadd_one h hd
  · rw [if_neg hlt]
    rw [flt_opTrunc_left_iff h, not_and, not_not] at hlt
    convert isIntegerWord_opTrunc h using 1
    split
    · rfl
    · next hs => have := hlt (Bool.eq_false_iff.2 hs); omega

/-- `ROUND` rounds the magnitude to the nearest integer and a half up. -/
theorem isIntegerWord_opRound {a : Word} (h : isFinite a = true) :
    IsIntegerWord (opRound params a) (signBit a) ((2 * magnitude a + 2 ^ 149) / 2 ^ 150) := by
  rw [opRound, ← opFract]
  have hhalf := fle_half_opFract_iff h
  split <;> rename_i hle <;> rw [hhalf] at hle
  · rw [show (2 * magnitude a + 2 ^ 149) / 2 ^ 150 = magnitude a / 2 ^ 149 + 1 by omega]
    exact isIntegerWord_fadd_one h (by omega)
  · rw [show (2 * magnitude a + 2 ^ 149) / 2 ^ 150 = magnitude a / 2 ^ 149 by omega]
    exact isIntegerWord_opTrunc h

/-! ### Words that `TRUNC` does not change -/

theorem opFloor_of_opTrunc_eq {a : Word} (h : opTrunc a = a) : opFloor params a = a := by
  rw [opFloor, h, if_neg (by simp [flt])]

theorem opCeil_of_opTrunc_eq {a : Word} (h : opTrunc a = a) : opCeil params a = a := by
  rw [opCeil, h, if_neg (by simp [flt])]

/-- The fraction of such a word is `+0` or the canonical NaN, and neither is at least one half. -/
theorem opRound_of_opTrunc_eq {a : Word} (h : opTrunc a = a) : opRound params a = a := by
  have hfract : opFract params a = ZERO ∨ opFract params a = CNAN := by
    cases hfin : isFinite a
    · exact .inr (opFract_of_not_isFinite hfin)
    · exact .inl (by rw [opFract, h, fsub_self_of_isFinite params hfin])
  have hle : fle HALF (fabs (opFract params a)) = false := by
    obtain hz | hn := hfract
    · rw [hz]; decide
    · rw [hn]; decide
  rw [opRound, ← opFract, hle, h, if_neg (by decide)]

/-! ### Values and classes of the results -/

theorem value_opTrunc {a : Word} (h : isFinite a = true) :
    value (opTrunc a) = (value a).tdiv (2 ^ 149) * 2 ^ 149 := by
  have hdiv : (magnitude a : Int).tdiv (2 ^ 149) = (magnitude a / 2 ^ 149 : Nat) := rfl
  rw [(isIntegerWord_opTrunc h).value_eq, value]
  split
  · rw [Int.neg_tdiv, hdiv]
  · rw [hdiv]

theorem value_opFloor {a : Word} (h : isFinite a = true) :
    value (opFloor params a) = value a / 2 ^ 149 * 2 ^ 149 := by
  rw [(isIntegerWord_opFloor h).value_eq, value]
  split <;> omega

theorem value_opCeil {a : Word} (h : isFinite a = true) :
    value (opCeil params a) = -(-value a / 2 ^ 149) * 2 ^ 149 := by
  rw [(isIntegerWord_opCeil h).value_eq, value]
  split <;> omega

/-- The lower half of `floor(x) ≤ x ≤ ceil(x)` (R137). -/
theorem fle_opFloor_self {x : Word} (h : isFinite x = true) : fle (opFloor params x) x = true := by
  refine fle_iff.2 ⟨isNaN_of_isFinite (isIntegerWord_opFloor h).isFinite_eq, isNaN_of_isFinite h, ?_⟩
  rw [value_opFloor h]
  omega

/-- The upper half of `floor(x) ≤ x ≤ ceil(x)` (R137). -/
theorem fle_self_opCeil {x : Word} (h : isFinite x = true) : fle x (opCeil params x) = true := by
  refine fle_iff.2 ⟨isNaN_of_isFinite h, isNaN_of_isFinite (isIntegerWord_opCeil h).isFinite_eq, ?_⟩
  rw [value_opCeil h]
  omega

/-- A fraction is less than one (R137). -/
theorem flt_fabs_opFract_ONE {x : Word} (h : isFinite x = true) : flt (fabs (opFract params x)) ONE = true := by
  refine flt_iff.2 ⟨?_, by decide, ?_⟩
  · rw [isNaN_fabs]
    exact isNaN_of_isFinite (isFinite_opFract h)
  · rw [value_fabs, magnitude_opFract h, value_of_signBit_false (by decide), magnitude_ONE]
    exact_mod_cast Nat.mod_lt _ (Nat.two_pow_pos 149)

/-- An operation that keeps finite words finite and other words as they are makes no NaN. -/
theorem isNaN_of_keeps_classes {f : Word → Word} (hfin : ∀ a, isFinite a = true → isFinite (f a) = true)
    (hid : ∀ a, isFinite a = false → f a = a) {x : Word} (h : isNaN x = false) : isNaN (f x) = false := by
  cases hx : isFinite x
  · rwa [hid x hx]
  · exact isNaN_of_isFinite (hfin x hx)

/-- `FRACT` makes a NaN from an infinity only (R137). -/
theorem isNaN_opFract_iff {x : Word} (h : isNaN x = false) : isNaN (opFract params x) = true ↔ isInf x = true := by
  cases hx : isFinite x
  · rw [opFract_of_not_isFinite hx]
    exact iff_of_true (by decide) (isInf_of_not_isFinite hx h)
  · simp [isNaN_of_isFinite (isFinite_opFract hx), isInf_of_isFinite hx]

end Sys2Proof.Machine

open Sys2Proof Sys2Proof.Machine Sys2Proof.Config Sys2Proof.Safety

/-- An instruction answers with its result (O43), in whatever form that result is known. -/
theorem answersWith_of_result_eq (i : Instr) (s : State) {r : Word} (h : result params i = r) : AnswersWith i s r :=
  h ▸ everyInstructionAnswersOnce i s

/-- Settles O14: the result of each is the word of a sign and of the fields of `a`. -/
theorem absAndCopysignTouchOnlyTheSignBit : Obligations.AbsAndCopysignTouchOnlyTheSignBit :=
  fun a b s => ⟨⟨_, everyInstructionAnswersOnce (.abs a) s, opAbs_toNat a⟩,
    ⟨_, everyInstructionAnswersOnce (.copysign a b) s, opCopySign_toNat a b⟩⟩

/-- Settles O15: the result has the operand's sign and the whole ones of its magnitude (`value_opTrunc`), and a word
that is not finite has no fraction bits to clear. -/
theorem truncIsTheIntegerTowardZero : Obligations.TruncIsTheIntegerTowardZero := by
  refine fun a s => ⟨fun h => ?_, fun h => ?_⟩
  · exact ⟨_, everyInstructionAnswersOnce (.trunc a) s, isFinite_opTrunc h, signBit_opTrunc a, value_opTrunc h⟩
  · exact answersWith_of_result_eq (.trunc a) s (opTrunc_of_not_isFinite h)

/-- Settles O16: the result is an integer word of the operand's sign (`isIntegerWord_opFloor`), zero or not. -/
theorem floorIsTheLargestIntegerNotAbove : Obligations.FloorIsTheLargestIntegerNotAbove := by
  refine fun a s => ⟨fun h => ?_, fun h => ?_⟩
  · obtain ⟨hfin, hsign, -⟩ := isIntegerWord_opFloor h
    refine ⟨_, everyInstructionAnswersOnce (.floor a) s, hfin, ?_, fun _ => hsign⟩
    rw [Int.fdiv_eq_ediv_of_nonneg _ (by positivity)]
    exact value_opFloor h
  · exact answersWith_of_result_eq (.floor a) s (opFloor_of_opTrunc_eq (opTrunc_of_not_isFinite h))

/-- Settles O17: the result is an integer word of the operand's sign (`isIntegerWord_opCeil`), zero or not. -/
theorem ceilIsTheSmallestIntegerNotBelow : Obligations.CeilIsTheSmallestIntegerNotBelow := by
  refine fun a s => ⟨fun h => ?_, fun h => ?_⟩
  · obtain ⟨hfin, hsign, -⟩ := isIntegerWord_opCeil h
    refine ⟨_, everyInstructionAnswersOnce (.ceil a) s, hfin, ?_, fun _ => hsign⟩
    rw [Int.fdiv_eq_ediv_of_nonneg _ (by positivity)]
    exact value_opCeil h
  · exact answersWith_of_result_eq (.ceil a) s (opCeil_of_opTrunc_eq (opTrunc_of_not_isFinite h))

/-- Settles O18: the three parts of `isIntegerWord_opRound`. -/
theorem roundIsTheNearestIntegerHalfAwayFromZero : Obligations.RoundIsTheNearestIntegerHalfAwayFromZero := by
  refine fun a s => ⟨fun h => ?_, fun h => ?_⟩
  · obtain ⟨hfin, hsign, hmag⟩ := isIntegerWord_opRound h
    exact ⟨_, everyInstructionAnswersOnce (.round a) s, hfin, hsign, hmag⟩
  · exact answersWith_of_result_eq (.round a) s (opRound_of_opTrunc_eq (opTrunc_of_not_isFinite h))

/-- Settles O19: the subtraction is exact (`value_opTrunc_add_opFract`), and a fraction of value zero is that of an
integer. -/
theorem fractIsTheExactFractionalPart : Obligations.FractIsTheExactFractionalPart := by
  refine fun a s => ⟨fun h => ?_, fun h => ?_⟩
  · refine ⟨_, everyInstructionAnswersOnce (.fract a) s, isFinite_opFract h, ?_, fun h0 => ?_⟩
    · rw [← value_opTrunc h]
      exact eq_sub_of_add_eq' (value_opTrunc_add_opFract h)
    · have hmod : magnitude a % 2 ^ 149 = 0 := by rw [← magnitude_opFract h]; exact (value_eq_zero_iff _).1 h0
      exact opFract_of_dvd h (Nat.dvd_of_mod_eq_zero hmod)
  · exact answersWith_of_result_eq (.fract a) s (opFract_of_not_isFinite h)

/-- Settles O20: the two parts add up to the value of `x` (`value_opTrunc_add_opFract`), and a sum that is the value
of a word is not rounded. -/
theorem integerAndFractionalPartsAddUpExactly : Obligations.IntegerAndFractionalPartsAddUpExactly := by
  intro x h
  have hsum := value_opTrunc_add_opFract h
  refine ⟨value_fadd_of_value_eq (isFinite_opTrunc h) (isFinite_opFract h) h hsum, fun hz => ?_⟩
  refine fadd_exact params_rounding (isFinite_opTrunc h) (isFinite_opFract h) h hsum ?_
  rw [Ne, value_eq_zero_iff, magnitude_zero_iff, hz]
  decide

/-- Settles O21: `FLOOR` and `CEIL` are ordered by their values; an integer, and so every result of the four rounding
operations, is a word that `TRUNC` and with it the others leave unchanged; only `FRACT` changes the class of a word
that is not finite. -/
theorem roundingOperationsKeepTheirLaws : Obligations.RoundingOperationsKeepTheirLaws := by
  refine ⟨fun x h => ⟨⟨fle_opFloor_self h, fle_self_opCeil h⟩, fun hd => ?_, flt_fabs_opFract_ONE h,
    ⟨?_, ?_, ?_, ?_⟩, fun s => ⟨opAbs_opCopySign x s, opGetSign_opCopySign x s⟩⟩,
    fun x h => ⟨?_, fun s => ?_, ?_, ?_, ?_, ?_, isNaN_opFract_iff h⟩⟩
  · have ht : opTrunc x = x := opTrunc_of_dvd h (by rw [← value_natAbs]; omega)
    rw [opFloor_of_opTrunc_eq ht, opCeil_of_opTrunc_eq ht, opRound_of_opTrunc_eq ht, ht]
    exact ⟨rfl, rfl, rfl, rfl⟩
  · exact (isIntegerWord_opTrunc h).opTrunc_eq
  · exact opFloor_of_opTrunc_eq (isIntegerWord_opFloor h).opTrunc_eq
  · exact opCeil_of_opTrunc_eq (isIntegerWord_opCeil h).opTrunc_eq
  · exact opRound_of_opTrunc_eq (isIntegerWord_opRound h).opTrunc_eq
  · exact (isNaN_fabs x).trans h
  · exact (isNaN_opCopySign x s).trans h
  · exact isNaN_of_keeps_classes (fun _ ha => (isIntegerWord_opFloor ha).isFinite_eq)
      (fun _ ha => opFloor_of_opTrunc_eq (opTrunc_of_not_isFinite ha)) h
  · exact isNaN_of_keeps_classes (fun _ ha => (isIntegerWord_opCeil ha).isFinite_eq)
      (fun _ ha => opCeil_of_opTrunc_eq (opTrunc_of_not_isFinite ha)) h
  · exact isNaN_of_keeps_classes (fun _ => isFinite_opTrunc) (fun _ => opTrunc_of_not_isFinite) h
  · exact isNaN_of_keeps_classes (fun _ ha => (isIntegerWord_opRound ha).isFinite_eq)
      (fun _ ha => opRound_of_opTrunc_eq (opTrunc_of_not_isFinite ha)) h

end

/-! PROOFS of the statements of `43_invsqrt.md`: the datapath of `INVSQRT`, `SQRT` and `INV`, and where it leaves its
domain (R150 to R153). -/
section
namespace Sys2Proof.Machine

open Sys2Proof.Config

/-! ### Products (R87) -/

/-- The sign of a product is the exclusive or of the operands' signs, unless the answer is the unit's `CNAN`. -/
theorem fmul_eq_cnan_or_signBit (p : Params) (a b : Word) :
    fmul p a b = p.cnan ∨ signBit (fmul p a b) = (signBit a ^^ signBit b) := by
  unfold fmul
  split_ifs
  · exact .inl rfl
  · exact .inl rfl
  · exact .inr (signBit_ofFields _ _ _)
  · exact .inr (signBit_ofFields _ _ _)
  · exact .inr (signBit_round32 _ _ _ _)

/-- An infinity times a word that is neither a zero nor a NaN is an infinity. -/
theorem fmul_of_isInf (p : Params) {a b : Word} (ha : isNaN a = false) (hb : isNaN b = false) (ha0 : isZero a = false)
    (hb0 : isZero b = false) (h : isInf a = true ∨ isInf b = true) : fmul p a b = infOf (signBit a ^^ signBit b) := by
  obtain h | h := h <;> simp [fmul, ha, hb, ha0, hb0, h]

/-- A product of finite words that are not zeros is rounded from the exact product. -/
theorem fmul_of_isFinite (p : Params) {a b : Word} (ha : isFinite a = true) (hb : isFinite b = true)
    (ha0 : isZero a = false) (hb0 : isZero b = false) :
    fmul p a b = round32 p.rounding (signBit a ^^ signBit b) (magnitude a * magnitude b) (2 ^ 149) := by
  simp [fmul, isNaN_of_isFinite ha, isNaN_of_isFinite hb, isInf_of_isFinite ha, isInf_of_isFinite hb, ha0, hb0]

/-! ### Words of a sign and of at least a power of two -/

/-- `w` is a word of sign `s` that is no NaN, of at least `2^k` units of magnitude: a finite word or the infinity, whose
place is at `2^277` (R81, R89). -/
structure IsAtLeast (s : Bool) (k : Nat) (w : Word) : Prop where
  isNaN_eq : isNaN w = false
  signBit_eq : signBit w = s
  le_magnitude : 2 ^ k ≤ magnitude w

theorem isAtLeast_of_isInf {k : Nat} {w : Word} (hk : k ≤ 277) (h : isInf w = true) : IsAtLeast (signBit w) k w :=
  ⟨isNaN_of_isInf h, rfl, magnitude_of_isInf h ▸ Nat.pow_le_pow_right two_pos hk⟩

theorem isInf_infOf (s : Bool) : isInf (infOf s) = true := by
  rw [isInf_iff, infOf, expBits_ofFields, mantBits_ofFields]
  exact ⟨rfl, rfl⟩

theorem isAtLeast_infOf (s : Bool) {k : Nat} (hk : k ≤ 277) : IsAtLeast s k (infOf s) := by
  have h := isAtLeast_of_isInf hk (isInf_infOf s)
  rwa [infOf, signBit_ofFields, ← infOf] at h

theorem IsAtLeast.isZero_eq {s : Bool} {k : Nat} {w : Word} (h : IsAtLeast s k w) : isZero w = false := by
  rw [Bool.eq_false_iff, Ne, ← magnitude_zero_iff]
  exact (lt_of_lt_of_le (Nat.two_pow_pos k) h.le_magnitude).ne'

/-- A word that is no NaN and no infinity is finite (R81). -/
theorem IsAtLeast.isFinite_eq {s : Bool} {k : Nat} {w : Word} (h : IsAtLeast s k w) (hinf : isInf w = false) :
    isFinite w = true := by
  by_contra hfin
  rw [isInf_of_not_isFinite (Bool.eq_false_iff.2 hfin) h.isNaN_eq] at hinf
  cases hinf

/-- No finite word reaches the place of the infinity. -/
theorem IsAtLeast.eq_infOf {s : Bool} {w : Word} (h : IsAtLeast s 277 w) : w = infOf s := by
  have hinf : isInf w = true := by
    by_contra hinf
    exact (magnitude_lt_of_isFinite (h.isFinite_eq (Bool.eq_false_iff.2 hinf))).not_ge h.le_magnitude
  obtain ⟨hexp, hmant⟩ := (isInf_iff w).1 hinf
  rw [← ofFields_eta w, h.signBit_eq, hexp, hmant, infOf]

/-- Rounding does not take a real below a power of two (R84). -/
theorem isAtLeast_round32 (s : Bool) {k N D : Nat} (hk : k ≤ 277) (hD : 0 < D) (h : 2 ^ k * D ≤ N) :
    IsAtLeast s k (round32 tiesToEven s N D) := by
  rw [← Nat.one_mul (2 ^ k)] at h
  obtain hinf | hle := le_magnitude_round32 s (by norm_num) hD h
  · rw [hinf]
    exact isAtLeast_infOf s hk
  · rw [Nat.one_mul] at hle
    refine ⟨?_, signBit_round32 _ s N D, hle⟩
    obtain hlt | hge := lt_or_ge N ((2 ^ 277 - 2 ^ 252) * D)
    · exact isNaN_of_isFinite (round32_of_lt s hD hlt).1
    · rw [round32_of_ge s hD hge]
      exact isNaN_of_isInf (isInf_infOf s)

/-- Of a product the exponents of two add up; one is `2^149` units. -/
theorem isAtLeast_fmul {s t : Bool} {i j k : Nat} {a b : Word} (ha : IsAtLeast s i a) (hb : IsAtLeast t j b)
    (hk : k ≤ 277) (hij : k + 149 ≤ i + j) : IsAtLeast (s ^^ t) k (fmul params a b) := by
  rw [← ha.signBit_eq, ← hb.signBit_eq]
  by_cases hinf : isInf a = true ∨ isInf b = true
  · rw [fmul_of_isInf params ha.isNaN_eq hb.isNaN_eq ha.isZero_eq hb.isZero_eq hinf]
    exact isAtLeast_infOf _ hk
  · rw [not_or, Bool.not_eq_true, Bool.not_eq_true] at hinf
    rw [fmul_of_isFinite params (ha.isFinite_eq hinf.1) (hb.isFinite_eq hinf.2) ha.isZero_eq hb.isZero_eq]
    refine isAtLeast_round32 _ hk (Nat.two_pow_pos 149) ?_
    calc 2 ^ k * 2 ^ 149 = 2 ^ (k + 149) := (pow_add 2 k 149).symm
      _ ≤ 2 ^ (i + j) := Nat.pow_le_pow_right two_pos hij
      _ = 2 ^ i * 2 ^ j := pow_add 2 i j
      _ ≤ magnitude a * magnitude b := Nat.mul_le_mul ha.le_magnitude hb.le_magnitude

/-- A positive word less a negative one is at least as far from zero as the latter. -/
theorem isAtLeast_fsub {k : Nat} {c w : Word} (hc : isFinite c = true) (hs : signBit c = false)
    (h : IsAtLeast true k w) (hk : k ≤ 277) : IsAtLeast false k (fsub params c w) := by
  have hsign : signBit (fneg w) = false := by rw [signBit_fneg, h.signBit_eq]; rfl
  cases hinf : isInf w
  · have hsum : value c + value (fneg w) = (magnitude c + magnitude w : ℕ) := by
      rw [value_of_signBit_false hs, value_of_signBit_false hsign, magnitude_fneg, Nat.cast_add]
    have hpos := lt_of_lt_of_le (Nat.two_pow_pos k) h.le_magnitude
    have hfin : isFinite (fneg w) = true := by rw [isFinite_fneg, h.isFinite_eq hinf]
    rw [fsub, fadd_of_isFinite params hc hfin (by omega), hsum, Int.natAbs_natCast]
    refine isAtLeast_round32 false hk one_pos ?_
    have := h.le_magnitude
    omega
  · have hadd : fsub params c w = fneg w := by
      simp [fsub, fadd, isNaN_of_isFinite hc, isInf_of_isFinite hc, h.isNaN_eq, hinf]
    rw [hadd, ← hsign]
    exact isAtLeast_of_isInf hk (by rwa [isInf_fneg])

/-! ### Words as numbers -/

/-- The NaNs lie above the infinities (R82). -/
theorem isNaN_iff_lt (w : Word) : isNaN w = true ↔ 0x7F800000 < w.toNat % 2 ^ 31 := by
  rw [isNaN_iff, Ne, ← BitVec.toNat_inj, ← BitVec.toNat_inj, expBits_toNat, mantBits_toNat, BitVec.toNat_ofNat,
    BitVec.toNat_ofNat]
  omega

/-- A negative word with an exponent field of at least `e`, up to `-Inf`. -/
theorem isAtLeast_of_toNat {e : Nat} {w : Word} (he : 0 < e) (hlo : 2 ^ 31 + e * 2 ^ 23 ≤ w.toNat)
    (hhi : w.toNat ≤ 0xFF800000) : IsAtLeast true (22 + e) w := by
  have hexp : e ≤ (expBits w).toNat := by rw [expBits_toNat]; omega
  refine ⟨?_, by rw [signBit_eq]; exact decide_eq_true (by omega), ?_⟩
  · rw [Bool.eq_false_iff, Ne, isNaN_iff_lt]
    omega
  · rw [magnitude_of_exponent_pos (he.trans_le hexp)]
    calc 2 ^ (22 + e) = 2 ^ 23 * 2 ^ (e - 1) := by rw [← pow_add]; congr 1; omega
      _ ≤ (2 ^ 23 + (mantBits w).toNat) * 2 ^ ((expBits w).toNat - 1) :=
        Nat.mul_le_mul (Nat.le_add_right _ _) (Nat.pow_le_pow_right two_pos (by omega))

/-! ### The Newton-Raphson step outside its domain (R150, D11) -/

/-- A NaN as the operand or as the estimate runs through every primitive of the step. -/
theorem newtonStep_of_isNaN {a y0 : Word} (h : isNaN a = true ∨ isNaN y0 = true) : newtonStep params a y0 = CNAN := by
  have hnan : isNaN params.cnan = true := by decide
  obtain ha | hy := h
  · rw [newtonStep, fmul_of_isNaN params (.inr ha), fmul_of_isNaN params (.inl hnan), subProduct_params,
      fmul_of_isNaN params (.inl hnan), fsub_of_isNaN params (.inr hnan), fmul_of_isNaN params (.inr hnan), params_cnan]
  · rw [newtonStep, fmul_of_isNaN params (.inl hy), params_cnan]

/-- From an operand of at most `-1/2` (`2^148` units) and an estimate of at most `-2^63` the step overflows: `0.5·x·y²`
is at most `-2^124`, and 1.5 less that, times the estimate, is beyond `-2^128`. -/
theorem newtonStep_overflows {a y0 : Word} (ha : IsAtLeast true 148 a) (hy : IsAtLeast true 212 y0) :
    newtonStep params a y0 = NINF := by
  have hhalf : IsAtLeast false 148 HALF := ⟨by decide, by decide, magnitude_HALF.ge⟩
  have hh : IsAtLeast true 147 (fmul params HALF a) := isAtLeast_fmul hhalf ha (by omega) (by omega)
  have hhy : IsAtLeast false 210 (fmul params (fmul params HALF a) y0) :=
    isAtLeast_fmul hh hy (by omega) (by omega)
  have hhyy : IsAtLeast true 273 (fmul params (fmul params (fmul params HALF a) y0) y0) :=
    isAtLeast_fmul hhy hy (by omega) (by omega)
  have hdist := isAtLeast_fsub (c := THREE_HALVES) (by decide) (by decide) hhyy (by omega)
  have hstep : IsAtLeast true 277 (newtonStep params a y0) := isAtLeast_fmul hy hdist (by omega) (by omega)
  exact hstep.eq_infOf

/-- In the range of negative words that holds -1.0, the operand is at most `-1/2` and the wrapped estimate is no NaN
and at most `-2^63` (log 20). -/
theorem opInvSqrt_eq_NINF {a : Word} (hlo : 0xBF6EB50C ≤ a.toNat) (hhi : a.toNat ≤ 0xFF800000) :
    opInvSqrt params a = NINF := by
  have hy := invSqrtEstimate_toNat a
  exact newtonStep_overflows (isAtLeast_of_toNat (e := 126) (by omega) (by omega) hhi)
    (isAtLeast_of_toNat (e := 190) (by omega) (by omega) (by omega))

/-- The negative words whose wrapped estimate is a NaN (log 20). -/
theorem isNaN_invSqrtEstimate {a : Word} (hlo : 0xBE6EB50E ≤ a.toNat) (hhi : a.toNat ≤ 0xBF6EB50B) :
    isNaN (invSqrtEstimate params a) = true := by
  rw [isNaN_iff_lt, invSqrtEstimate_toNat]
  omega

/-- `-Inf` times a negative word is `+Inf`. -/
theorem IsAtLeast.fmul_NINF {k : Nat} {a : Word} (h : IsAtLeast true k a) : fmul params a NINF = PINF := by
  rw [fmul_of_isInf params h.isNaN_eq (by decide) h.isZero_eq (by decide) (.inr (by decide)), h.signBit_eq]
  decide

end Sys2Proof.Machine

open Sys2Proof Sys2Proof.Machine Sys2Proof.Config Sys2Proof.Safety

/-- `SQRT` and `INV` are products of the operand and of what `INVSQRT` answers (R151, R152). -/
theorem invSqrtFamily_answersWith {a y q r : Word}
    (h : opInvSqrt params a = y ∧ fmul params a y = q ∧ fmul params y y = r) (s : State) :
    AnswersWith (.invsqrt a) s y ∧ AnswersWith (.sqrt a) s q ∧ AnswersWith (.inv a) s r := by
  obtain ⟨rfl, hq, hr⟩ := h
  exact ⟨answersWith_of_result_eq (.invsqrt a) s rfl, answersWith_of_result_eq (.sqrt a) s hq,
    answersWith_of_result_eq (.inv a) s hr⟩

/-- A NaN from `INVSQRT` is one from all three. -/
theorem invSqrtFamily_answersWith_CNAN {a : Word} (h : opInvSqrt params a = CNAN) (s : State) :
    AnswersWith (.invsqrt a) s CNAN ∧ AnswersWith (.sqrt a) s CNAN ∧ AnswersWith (.inv a) s CNAN :=
  have hnan : isNaN CNAN = true := by decide
  invSqrtFamily_answersWith ⟨h, fmul_of_isNaN params (.inr hnan), fmul_of_isNaN params (.inr hnan)⟩ s

/-- Settles O24: both operands of the last product have the same sign (`fmul_eq_cnan_or_signBit`). -/
theorem inverseIsNeverNegative : Obligations.InverseIsNeverNegative := by
  intro p a hcnan
  obtain h | h := fmul_eq_cnan_or_signBit p (opInvSqrt p a) (opInvSqrt p a)
  · rw [opInv, h, hcnan]
  · rw [opInv, h, Bool.xor_self]

/-- Settles O22: the datapath is the definition of the three results, with the default parameters put in. -/
theorem inverseSquareRootFollowsItsDatapath : Obligations.InverseSquareRootFollowsItsDatapath :=
  fun _ s => invSqrtFamily_answersWith ⟨rfl, rfl, rfl⟩ s

/-- Settles O23: the tabulated words are computed; from `0xBF6EB50C` to `-Inf` the step overflows
(`opInvSqrt_eq_NINF`), and from a NaN, be it the estimate or the operand, it gives the canonical one
(`newtonStep_of_isNaN`). -/
theorem inverseSquareRootOutsideItsDomain : Obligations.InverseSquareRootOutsideItsDomain := by
  refine fun s => ⟨?_, ?_, ?_, ?_, fun a hlo hhi => ?_, fun a hlo hhi => ?_, fun a ha => ?_⟩
  · exact invSqrtFamily_answersWith (by decide +kernel) s
  · exact invSqrtFamily_answersWith (by decide +kernel) s
  · exact invSqrtFamily_answersWith (by decide +kernel) s
  · exact invSqrtFamily_answersWith (by decide +kernel) s
  · have ha : IsAtLeast true 148 a := isAtLeast_of_toNat (e := 126) (by omega) (by omega) hhi
    exact invSqrtFamily_answersWith ⟨opInvSqrt_eq_NINF hlo hhi, ha.fmul_NINF, by decide⟩ s
  · exact invSqrtFamily_answersWith_CNAN (newtonStep_of_isNaN (.inr (isNaN_invSqrtEstimate hlo hhi))) s
  · exact invSqrtFamily_answersWith_CNAN (newtonStep_of_isNaN (.inl ha)) s

end

/-! PROOFS of the statements of `44_trig.md`: the datapath of `COS`, `SIN` and `TAN`, what it makes of infinities, NaNs
and huge angles, and a cosine beyond one (R160 to R163). -/
section
namespace Sys2Proof.Machine

open Sys2Proof.Config

/-! ### Magnitudes -/

/-- A magnitude lies below the end of the binade of its exponent field (R81). -/
theorem magnitude_lt_binade (w : Word) : magnitude w < 2 ^ (23 + (expBits w).toNat) := by
  have hm := (mantBits w).isLt
  by_cases he : expBits w = 0#8
  · rwa [magnitude, if_pos he, he]
  · have hpos : (expBits w).toNat ≠ 0 := fun h0 => he (BitVec.eq_of_toNat_eq h0)
    rw [magnitude, if_neg he, show 23 + (expBits w).toNat = 24 + ((expBits w).toNat - 1) by omega, pow_add]
    exact Nat.mul_lt_mul_of_pos_right (by omega) (Nat.two_pow_pos _)

/-- The magnitude of a normal word reaches the binade of its exponent field (R81). -/
theorem binade_le_magnitude {w : Word} (h : 0 < (expBits w).toNat) : 2 ^ (22 + (expBits w).toNat) ≤ magnitude w := by
  rw [magnitude_of_exponent_pos h, show 22 + (expBits w).toNat = 23 + ((expBits w).toNat - 1) by omega, pow_add]
  exact Nat.mul_le_mul_right _ (Nat.le_add_right _ _)

theorem fabs_toNat (w : Word) : (fabs w).toNat = w.toNat % 2 ^ 31 := opAbs_toNat w

/-- The magnitude grows with the word without its sign (R81). -/
theorem magnitude_le_magnitude {v w : Word} (h : (fabs v).toNat ≤ (fabs w).toNat) : magnitude v ≤ magnitude w := by
  have hv := expBits_toNat v
  have hw := expBits_toNat w
  rw [fabs_toNat, fabs_toNat] at h
  obtain hlt | heq : (expBits v).toNat < (expBits w).toNat ∨ (expBits v).toNat = (expBits w).toNat := by omega
  · calc magnitude v ≤ 2 ^ (23 + (expBits v).toNat) := (magnitude_lt_binade v).le
      _ ≤ 2 ^ (22 + (expBits w).toNat) := Nat.pow_le_pow_right two_pos (by omega)
      _ ≤ magnitude w := binade_le_magnitude (by omega)
  · have hmant : (mantBits v).toNat ≤ (mantBits w).toNat := by
      rw [mantBits_toNat, mantBits_toNat]
      omega
    rw [magnitude, magnitude, BitVec.eq_of_toNat_eq heq]
    split
    · exact hmant
    · exact Nat.mul_le_mul_right _ (Nat.add_le_add_left hmant _)

/-- A magnitude of at least `2^(k + 23)` units is a multiple of `2^k` units (R81). -/
theorem two_pow_dvd_magnitude {k : Nat} {w : Word} (h : 2 ^ (k + 23) ≤ magnitude w) : 2 ^ k ∣ magnitude w := by
  obtain ⟨c, j, hm, hc⟩ := magnitude_significand w
  have hlt : 2 ^ (k + 23) < 2 ^ (24 + j) := by
    rw [pow_add 2 24 j]
    exact lt_of_le_of_lt (hm ▸ h) (Nat.mul_lt_mul_of_pos_right hc (Nat.two_pow_pos j))
  have hkj : k ≤ j := by
    have := (Nat.pow_lt_pow_iff_right (by norm_num)).1 hlt
    omega
  exact hm ▸ Dvd.dvd.mul_left (pow_dvd_pow 2 hkj) c

/-- No finite word is larger than `0x7F7FFFFF`, one quantum below the place of the infinity (R81). -/
theorem magnitude_le_of_isFinite {w : Word} (h : isFinite w = true) : magnitude w + 2 ^ 253 ≤ 2 ^ 277 := by
  have hexp := expBits_toNat w
  have hne : (expBits w).toNat ≠ 255 := fun c => (isFinite_iff w).1 h (BitVec.eq_of_toNat_eq c)
  calc magnitude w + 2 ^ 253 ≤ magnitude 0x7F7FFFFF#32 + 2 ^ 253 := by
        refine Nat.add_le_add_right (magnitude_le_magnitude ?_) _
        rw [fabs_toNat, fabs_toNat, BitVec.toNat_ofNat]
        omega
    _ = 2 ^ 277 := by decide +kernel

/-! ### Sums that are absorbed -/

/-- The order of two finite terms does not matter (R85). -/
theorem fadd_comm_of_isFinite (p : Params) {a b : Word} (ha : isFinite a = true) (hb : isFinite b = true)
    (h : value a + value b ≠ 0) : fadd p a b = fadd p b a := by
  rw [fadd_of_isFinite p ha hb h, fadd_of_isFinite p hb ha (by rwa [add_comm]), add_comm]

/-- A sum of a word with a much smaller one has the sign of the former and lies near it. -/
theorem value_add_near {a b : Word} (h : magnitude b < magnitude a) :
    value a + value b ≠ 0 ∧ signOf (value a + value b) = signBit a ∧
      magnitude a ≤ (value a + value b).natAbs + magnitude b ∧
      (value a + value b).natAbs ≤ magnitude a + magnitude b := by
  cases hs : signBit a <;> cases ht : signBit b <;> simp [value, signOf, hs, ht] <;> omega

/-- Added to a word of more than `2^(k + 23)` units, on either side of it, a term of less than half of `2^k` units is
lost in the rounding, because words of that size are `2^k` or more units apart. -/
theorem fadd_absorbs (k : Nat) {a b : Word} (ha : isFinite a = true) (hb : isFinite b = true)
    (hbig : 2 ^ (k + 23) + magnitude b ≤ magnitude a) (hsmall : 2 * magnitude b < 2 ^ k) :
    fadd params a b = a ∧ fadd params b a = a := by
  have hk : k ≤ 253 := by
    by_contra hk
    have := Nat.pow_le_pow_right two_pos (show 277 ≤ k + 23 by omega)
    have := magnitude_lt_of_isFinite ha
    omega
  have hpos := Nat.two_pow_pos (k + 23)
  obtain ⟨hne, hsign, hlo, hhi⟩ := value_add_near (a := a) (b := b) (by omega)
  rw [← fadd_comm_of_isFinite params ha hb hne, and_self, fadd_of_isFinite params ha hb hne, hsign]
  generalize (value a + value b).natAbs = N at *
  have hlarge : N < (2 ^ 277 - 2 ^ 252) * 1 := by
    have hmax := magnitude_le_of_isFinite ha
    have hpow := Nat.pow_le_pow_right two_pos hk
    generalize 2 ^ 277 = m at *
    omega
  obtain ⟨hrsign, -, hnear⟩ := roundingIsToNearestTiesToEven (signBit a) N 1 one_pos
  obtain ⟨hfin, hnear⟩ := hnear hlarge
  have hge := (isAtLeast_round32 (signBit a) (k := k + 23) (N := N) (by omega) one_pos (by omega)).le_magnitude
  rw [← params_rounding] at hge
  refine eq_of_sign_magnitude hfin ha hrsign ?_
  have hdist := (hnear a ha).1
  generalize round32 params.rounding (signBit a) N 1 = r at *
  have hmod : magnitude r ≡ magnitude a [MOD 2 ^ k] :=
    ((Nat.modEq_zero_iff_dvd).2 (two_pow_dvd_magnitude hge)).trans
      ((Nat.modEq_zero_iff_dvd).2 (two_pow_dvd_magnitude (by omega))).symm
  -- Both lie within the small term of the exact sum, so they are less than `2^k` units apart.
  refine Nat.ModEq.eq_of_abs_lt hmod ?_
  zify at *
  simp only [abs_eq_max_neg] at *
  omega

/-- A finite term does not make an infinity or a NaN finite (R83, R85). -/
theorem isFinite_fsub_of_not_isFinite {a b : Word} (ha : isFinite a = false) (hb : isFinite b = true) :
    isFinite (fsub params a b) = false := by
  cases hnan : isNaN a
  · simpa [fsub, fadd, hnan, isInf_of_not_isFinite ha hnan, isNaN_of_isFinite hb, isInf_of_isFinite hb] using ha
  · rw [fsub_of_isNaN params (.inl hnan)]
    decide

/-! ### The reduction to one period (R160) -/

/-- Turns that a quarter turn does not change and that have no fraction reduce to what is left of them less
themselves. -/
theorem rangeReduce_eq_fsub_self {a t : Word} (ht : fmul params a params.cosInv2Pi = t)
    (hright : fadd params t QUARTER = t) (hleft : fadd params QUARTER t = t) (hint : opTrunc t = t) :
    rangeReduce params a = fsub params t t := by
  rw [rangeReduce, ht, hright, opFloor_of_opTrunc_eq hint, hleft]

/-- The turns of an infinity are an infinity and those of a NaN are the canonical NaN; either is left unchanged until
it is subtracted from itself. -/
theorem rangeReduce_of_not_isFinite {a : Word} (h : isFinite a = false) : rangeReduce params a = CNAN := by
  cases hnan : isNaN a
  · have hinf := isInf_of_not_isFinite h hnan
    have hzero : isZero a = false := (isAtLeast_of_isInf (k := 277) le_rfl hinf).isZero_eq
    have ht := fmul_of_isInf params hnan (b := params.cosInv2Pi) (by decide) hzero (by decide) (.inl hinf)
    have hkept : ∀ s, fadd params (infOf s) QUARTER = infOf s ∧ fadd params QUARTER (infOf s) = infOf s ∧
        opTrunc (infOf s) = infOf s := by decide
    obtain ⟨hright, hleft, hint⟩ := hkept (signBit a ^^ signBit params.cosInv2Pi)
    rw [rangeReduce_eq_fsub_self ht hright hleft hint, fsub_self_of_isInf params (isInf_infOf _), params_cnan]
  · rw [rangeReduce_eq_fsub_self (fmul_of_isNaN params (.inl hnan)) (by decide) (by decide) (by decide)]
    decide

/-- From `2^23` turns on there is no fraction, and a quarter turn is lost in the rounding. At `2^23` itself, where words
toward zero are half a turn apart, a tie is rounded to the even word. -/
theorem turns_absorb_quarter {t : Word} (hfin : isFinite t = true) (h : 2 ^ 172 ≤ magnitude t) :
    fadd params t QUARTER = t ∧ fadd params QUARTER t = t ∧ opTrunc t = t := by
  have hdvd : 2 ^ 149 ∣ magnitude t := two_pow_dvd_magnitude h
  have hquarter : magnitude QUARTER = 2 ^ 147 := magnitude_of_mantBits_zero (by decide) (by decide)
  obtain heq | hlt := h.eq_or_lt
  · have ht : t = ofMagnitude (signBit t) (2 ^ 172) := by rw [heq, ofMagnitude_magnitude hfin]
    rw [ht]
    cases signBit t <;> decide +kernel
  · have hbig : 2 ^ (149 + 23) + magnitude QUARTER ≤ magnitude t := by omega
    have hsmall : 2 * magnitude QUARTER < 2 ^ 149 := by omega
    obtain ⟨hright, hleft⟩ := fadd_absorbs 149 hfin (by decide) hbig hsmall
    exact ⟨hright, hleft, opTrunc_of_dvd hfin hdvd⟩

/-- A finite word is a finite number of turns: the factor is less than one. -/
theorem isFinite_turns {a : Word} (hfin : isFinite a = true) (hzero : isZero a = false) :
    isFinite (fmul params a params.cosInv2Pi) = true := by
  rw [fmul_of_isFinite params hfin (by decide) hzero (by decide)]
  refine (round32_of_lt _ (Nat.two_pow_pos 149) ?_).1
  have hmax := magnitude_le_of_isFinite hfin
  have hfactor : magnitude params.cosInv2Pi ≤ 2 ^ 147 := by decide +kernel
  have hle : magnitude a * magnitude params.cosInv2Pi ≤ magnitude a * 2 ^ 147 := Nat.mul_le_mul_left _ hfactor
  generalize 2 ^ 277 = m at *
  omega

theorem isZero_of_huge {a : Word} (h : 0x4C490FDB ≤ (fabs a).toNat) : isZero a = false := by
  rw [Bool.eq_false_iff, Ne, ← magnitude_zero_iff]
  exact (lt_of_lt_of_le (by decide) (magnitude_le_magnitude (v := 0x4C490FDB#32) h)).ne'

/-- An angle of at least `2^23 · 2π` is at least `2^23` turns. The product of the first such word lies just below that
number and is rounded to it; that of the next one is above it. -/
theorem turns_of_huge {a : Word} (hfin : isFinite a = true) (h : 0x4C490FDB ≤ (fabs a).toNat) :
    2 ^ 172 ≤ magnitude (fmul params a params.cosInv2Pi) := by
  obtain heq | hlt := h.eq_or_lt
  · have ha : a = ofFields (signBit a) (expBits 0x4C490FDB#32) (mantBits 0x4C490FDB#32) := by
      have habs : fabs a = 0x4C490FDB#32 := BitVec.eq_of_toNat_eq heq.symm
      rw [← habs, expBits_fabs, mantBits_fabs, ofFields_eta]
    rw [ha]
    cases signBit a <;> decide +kernel
  · have hnext : 2 ^ 172 * 2 ^ 149 ≤ magnitude 0x4C490FDC#32 * magnitude params.cosInv2Pi := by decide +kernel
    have hprod := hnext.trans (Nat.mul_le_mul_right _ (magnitude_le_magnitude hlt))
    rw [fmul_of_isFinite params hfin (by decide) (isZero_of_huge h) (by decide)]
    exact (isAtLeast_round32 _ (by norm_num) (Nat.two_pow_pos 149) hprod).le_magnitude

/-- A huge angle reduces to `+0` (R160, D16). -/
theorem rangeReduce_of_huge {a : Word} (hfin : isFinite a = true) (h : 0x4C490FDB ≤ (fabs a).toNat) :
    rangeReduce params a = ZERO := by
  have htfin := isFinite_turns hfin (isZero_of_huge h)
  obtain ⟨hright, hleft, hint⟩ := turns_absorb_quarter htfin (turns_of_huge hfin h)
  rw [rangeReduce_eq_fsub_self rfl hright hleft hint, fsub_self_of_isFinite params htfin]

/-! ### The polynomial and the instructions built on it (R161 to R163) -/

/-- A NaN runs through every primitive of the polynomial. -/
theorem opCos_of_not_isFinite {a : Word} (h : isFinite a = false) : opCos params a = CNAN := by
  rw [opCos, rangeReduce_of_not_isFinite h]
  decide

/-- Where nothing is left of the angle the polynomial is `+0`. -/
theorem opCos_of_huge {a : Word} (hfin : isFinite a = true) (h : 0x4C490FDB ≤ (fabs a).toNat) :
    opCos params a = ZERO := by
  rw [opCos, rangeReduce_of_huge hfin h]
  decide +kernel

/-- Words of a huge angle's size are `4` or more apart, so `π/2` is lost in the rounding. -/
theorem fsub_FRAC_PI_2_of_huge {a : Word} (hfin : isFinite a = true) (h : 0x4C490FDB ≤ (fabs a).toNat) :
    fsub params a FRAC_PI_2 = a := by
  refine (fadd_absorbs 151 hfin (by decide) ?_ (by decide +kernel)).1
  calc 2 ^ (151 + 23) + magnitude (fneg FRAC_PI_2) ≤ magnitude 0x4C490FDB#32 := by decide +kernel
    _ ≤ magnitude a := magnitude_le_magnitude h

end Sys2Proof.Machine

open Sys2Proof Sys2Proof.Machine Sys2Proof.Config Sys2Proof.Safety

/-- `COS`, `SIN` and `TAN` answer with the cosine, with the cosine a quarter turn before, and with their quotient (R161
to R163). -/
theorem trigFamily_answersWith {a c q r : Word}
    (h : opCos params a = c ∧ opCos params (fsub params a FRAC_PI_2) = q ∧ fdiv params q c = r) (s : State) :
    AnswersWith (.cos a) s c ∧ AnswersWith (.sin a) s q ∧ AnswersWith (.tan a) s r := by
  obtain ⟨rfl, rfl, hr⟩ := h
  exact ⟨answersWith_of_result_eq (.cos a) s rfl, answersWith_of_result_eq (.sin a) s rfl,
    answersWith_of_result_eq (.tan a) s hr⟩

/-- Settles O27: the cosine of an infinity or a NaN is the canonical NaN (`opCos_of_not_isFinite`), `a - π/2` is an
infinity or a NaN if `a` is, and so is the quotient of NaNs. -/
theorem trigonometryOfNonFiniteWordsIsNaN : Obligations.TrigonometryOfNonFiniteWordsIsNaN := by
  intro a s h
  have hshift : isFinite (fsub params a FRAC_PI_2) = false := isFinite_fsub_of_not_isFinite h (by decide)
  exact trigFamily_answersWith ⟨opCos_of_not_isFinite h, opCos_of_not_isFinite hshift, by decide⟩ s

/-- Settles O28: the cosine of a huge angle is `+0` (`opCos_of_huge`), its sine is the cosine of the same word
(`fsub_FRAC_PI_2_of_huge`), and a zero over a zero is the canonical NaN. -/
theorem hugeAnglesCarryNoInformation : Obligations.HugeAnglesCarryNoInformation := by
  intro a s hfin h
  have hcos := opCos_of_huge hfin h
  have hsin : opCos params (fsub params a FRAC_PI_2) = ZERO := by rw [fsub_FRAC_PI_2_of_huge hfin h, hcos]
  exact trigFamily_answersWith ⟨hcos, hsin, by decide⟩ s

/-- Refutes O29: the finite word `0xCBC90FDC` has the cosine `0xC08B3333`, about -4.35 (log 17). -/
theorem not_cosineOfEveryFiniteWordIsInTheUnitInterval :
    ¬ Obligations.CosineOfEveryFiniteWordIsInTheUnitInterval := by
  intro h
  have hcos : opCos params 0xCBC90FDC#32 = 0xC08B3333#32 := by decide +kernel
  have hle := h 0xCBC90FDC#32 (by decide)
  rw [hcos] at hle
  exact absurd hle (by decide)

/-- Settles O26: with the default parameters put in, the definition of the cosine is the datapath, because a unit
without fusion rounds its last product and sum apart (`addProduct_params`). -/
theorem cosineSineTangentFollowTheirDatapath : Obligations.CosineSineTangentFollowTheirDatapath := by
  intro a s cosine
  have hcos : opCos params = cosine := funext fun _ => addProduct_params _ _ _
  rw [← hcos]
  exact trigFamily_answersWith ⟨rfl, rfl, rfl⟩ s

end

/-! PROOFS of the statements of `45_arctrig.md`: the arctangents are computed from words in `[0, 1]` that carry no sign,
and zeros and infinities make the ratio of the magnitudes `+0` (R175 to R180). -/
section
namespace Sys2Proof.Machine

open Sys2Proof.Config

/-! ### Results as rounded reals: zeros need no case of their own -/

theorem magnitude_pos_iff (w : Word) : 0 < magnitude w ↔ isZero w = false := by
  rw [Nat.pos_iff_ne_zero, Ne, magnitude_zero_iff, Bool.not_eq_true]

/-- A magnitude of zero is rounded to the zero of the same sign (R84). -/
theorem round32_zero (s : Bool) {D : Nat} (hD : 0 < D) : round32 tiesToEven s 0 D = zeroOf s := by
  have h := nearestEven_mul_self 0 (Nat.mul_pos hD (Nat.two_pow_pos (quantum 0 D)))
  rw [Nat.zero_mul] at h
  simp [round32, tiesToEven, h, ofMagnitude, zeroOf]

theorem fneg_ofFields (s : Bool) (e : BitVec 8) (m : BitVec 23) : fneg (ofFields s e m) = ofFields (!s) e m := by
  apply eq_of_fields <;> simp

theorem ofMagnitude_not (s : Bool) (v : Nat) : ofMagnitude (!s) v = fneg (ofMagnitude s v) := by
  unfold ofMagnitude
  split_ifs <;> exact (fneg_ofFields _ _ _).symm

/-- Rounding to nearest does not look at the sign (R84, D6). -/
theorem round32_not (s : Bool) (N D : Nat) : round32 tiesToEven (!s) N D = fneg (round32 tiesToEven s N D) :=
  ofMagnitude_not s _

section
variable {a b : Word}

/-- The sum of two finite words is rounded from the exact sum; a zero sum is `+0` if the first has no sign (R85). -/
theorem fadd_eq_round32 (ha : isFinite a = true) (hb : isFinite b = true) (hs : signBit a = false) :
    fadd params a b = round32 tiesToEven (signOf (value a + value b)) (value a + value b).natAbs 1 := by
  by_cases h : value a + value b = 0
  · rw [h, Int.natAbs_zero, round32_zero _ one_pos]
    simp [fadd, isNaN_of_isFinite ha, isNaN_of_isFinite hb, isInf_of_isFinite ha, isInf_of_isFinite hb, h, hs]
    rfl
  · exact fadd_of_isFinite params ha hb h

/-- The product of two finite words is rounded from the exact product (R87). -/
theorem fmul_eq_round32 (ha : isFinite a = true) (hb : isFinite b = true) :
    fmul params a b =
      round32 tiesToEven (signBit a ^^ signBit b) (magnitude a * magnitude b) (2 ^ 149) := by
  by_cases h : isZero a = true ∨ isZero b = true
  · have hmul : magnitude a * magnitude b = 0 := by simpa [magnitude_zero_iff] using h
    rw [hmul, round32_zero _ (Nat.two_pow_pos 149)]
    simp [fmul, isNaN_of_isFinite ha, isNaN_of_isFinite hb, isInf_of_isFinite ha, isInf_of_isFinite hb, h]
  · rw [not_or, Bool.not_eq_true, Bool.not_eq_true] at h
    exact fmul_of_isFinite params ha hb h.1 h.2

/-- The quotient of two finite words is rounded from the exact quotient, unless the divisor is a zero (R88). -/
theorem fdiv_eq_round32 (ha : isFinite a = true) (hb : isFinite b = true) (hb0 : isZero b = false) :
    fdiv params a b =
      round32 tiesToEven (signBit a ^^ signBit b) (magnitude a * 2 ^ 149) (magnitude b) := by
  cases ha0 : isZero a
  · simp [fdiv, isNaN_of_isFinite ha, isNaN_of_isFinite hb, isInf_of_isFinite ha, isInf_of_isFinite hb, ha0, hb0]
  · rw [(magnitude_zero_iff a).2 ha0, Nat.zero_mul, round32_zero _ ((magnitude_pos_iff b).2 hb0)]
    simp [fdiv, isNaN_of_isFinite ha, isNaN_of_isFinite hb, isInf_of_isFinite ha, isInf_of_isFinite hb, ha0, hb0]

/-- The sign of a finite factor is the sign of the product (R87). -/
theorem fmul_fneg (ha : isFinite a = true) (hb : isFinite b = true) :
    fmul params a (fneg b) = fneg (fmul params a b) := by
  rw [fmul_eq_round32 ha hb, fmul_eq_round32 ha (by rwa [isFinite_fneg]), ← round32_not, signBit_fneg, magnitude_fneg,
    Bool.xor_not]

end

/-! ### Words of a sign and of at most a given magnitude -/

/-- `w` is a finite word of sign `s`, no larger in magnitude than the word `m`. -/
structure IsWithin (s : Bool) (m w : Word) : Prop where
  isFinite_eq : isFinite w = true
  signBit_eq : signBit w = s
  magnitude_le : magnitude w ≤ magnitude m

section
variable {s t : Bool} {a b l m w : Word}

theorem IsWithin.mono (h : IsWithin s l w) (hle : magnitude l ≤ magnitude m) : IsWithin s m w :=
  ⟨h.isFinite_eq, h.signBit_eq, h.magnitude_le.trans hle⟩

theorem isWithin_self (h : isFinite w = true) (hs : signBit w = s) : IsWithin s w w := ⟨h, hs, le_rfl⟩

theorem isWithin_zeroOf (s : Bool) (m : Word) : IsWithin s m (zeroOf s) :=
  ⟨by simp [zeroOf, isFinite], signBit_ofFields _ _ _, by simp [zeroOf, magnitude]⟩

theorem IsWithin.fle_fabs (h : IsWithin s m w) (hm : isNaN m = false) (hs : signBit m = false) :
    fle (fabs w) m = true := by
  rw [fle_iff, isNaN_fabs, value_fabs, value_of_signBit_false hs]
  exact ⟨isNaN_of_isFinite h.isFinite_eq, hm, Int.ofNat_le.2 h.magnitude_le⟩

/-- Rounding does not take a real beyond a word (R84). -/
theorem isWithin_round32 (s : Bool) {N D : Nat} (hD : 0 < D) (hm : isFinite m = true) (h : N ≤ magnitude m * D) :
    IsWithin s m (round32 tiesToEven s N D) := by
  have hlt : magnitude m < 2 ^ 277 - 2 ^ 252 := by
    have := magnitude_le_of_isFinite hm
    omega
  obtain ⟨hsign, -, hnear⟩ := roundingIsToNearestTiesToEven s N D hD
  obtain ⟨hfin, hnear⟩ := hnear (h.trans_lt (Nat.mul_lt_mul_of_pos_right hlt hD))
  have hdist := (hnear m hm).1
  refine ⟨hfin, hsign, ?_⟩
  rw [params_rounding] at hdist
  by_contra hgt
  have hlarger := Nat.mul_lt_mul_of_pos_right (not_le.1 hgt) hD
  zify at h hlarger
  rw [abs_of_pos (by omega), abs_of_nonneg (by omega)] at hdist
  omega

/-- Nor does it take a real below a word. -/
theorem magnitude_le_round32 (s : Bool) {N D : Nat} (hD : 0 < D) (hm : isFinite m = true) (h : magnitude m * D ≤ N) :
    magnitude m ≤ magnitude (round32 tiesToEven s N D) := by
  obtain ⟨c, k, hck, hc⟩ := magnitude_significand m
  rw [hck] at h
  obtain hinf | hle := le_magnitude_round32 s hc hD h
  · rw [hinf, magnitude_of_isInf (isInf_infOf s)]
    exact (magnitude_lt_of_isFinite hm).le
  · rwa [hck]

theorem isWithin_fmul (ha : IsWithin s l a) (hb : IsWithin t m b) (hw : isFinite w = true)
    (h : magnitude l * magnitude m ≤ magnitude w * 2 ^ 149) : IsWithin (s ^^ t) w (fmul params a b) := by
  rw [fmul_eq_round32 ha.isFinite_eq hb.isFinite_eq, ha.signBit_eq, hb.signBit_eq]
  exact isWithin_round32 _ (Nat.two_pow_pos 149) hw ((Nat.mul_le_mul ha.magnitude_le hb.magnitude_le).trans h)

/-- A sum has the sign of the exact sum and is no further from zero than a word that bounds it (R85). -/
theorem isWithin_fadd (ha : isFinite a = true) (hb : isFinite b = true) (hs : signBit a = false)
    (hm : isFinite m = true) (h : (value a + value b).natAbs ≤ magnitude m) :
    IsWithin (signOf (value a + value b)) m (fadd params a b) := by
  rw [fadd_eq_round32 ha hb hs]
  exact isWithin_round32 _ one_pos hm (by rwa [Nat.mul_one])

/-- A sum of words without a sign has none, stays below a word that bounds the sum, and reaches both terms. -/
theorem isWithin_fadd_of_pos (ha : IsWithin false l a) (hb : IsWithin false m b) (hw : isFinite w = true)
    (h : magnitude l + magnitude m ≤ magnitude w) :
    IsWithin false w (fadd params a b) ∧ magnitude a ≤ magnitude (fadd params a b) ∧
      magnitude b ≤ magnitude (fadd params a b) := by
  have hsum : value a + value b = (magnitude a + magnitude b : ℕ) := by
    rw [value_of_signBit_false ha.signBit_eq, value_of_signBit_false hb.signBit_eq, Nat.cast_add]
  have hround := fadd_eq_round32 ha.isFinite_eq hb.isFinite_eq ha.signBit_eq
  have hsign : signOf (magnitude a + magnitude b : ℕ) = false := decide_eq_false (by omega)
  rw [hsum, hsign, Int.natAbs_natCast] at hround
  rw [hround]
  refine ⟨isWithin_round32 _ one_pos hw ?_, magnitude_le_round32 _ one_pos ha.isFinite_eq ?_,
    magnitude_le_round32 _ one_pos hb.isFinite_eq ?_⟩
  · have := ha.magnitude_le
    have := hb.magnitude_le
    omega
  · omega
  · omega

/-- A word less a smaller one stays between zero and the former. -/
theorem isWithin_fsub (ha : isFinite a = true) (hs : signBit a = false) (hb : IsWithin false a b) :
    IsWithin false a (fsub params a b) := by
  have hle := hb.magnitude_le
  have hdiff : value a + value (fneg b) = (magnitude a - magnitude b : ℕ) := by
    rw [value_fneg, value_of_signBit_false hs, value_of_signBit_false hb.signBit_eq]
    omega
  have hsign : signOf (value a + value (fneg b)) = false := decide_eq_false (by omega)
  rw [fsub, ← hsign]
  exact isWithin_fadd ha (by rw [isFinite_fneg, hb.isFinite_eq]) hs ha (by omega)

/-! ### Quotients without a sign (R88) -/

/-- `a` counts for nothing beside `b`: it is a zero and `b` is none, or it is finite and `b` is an infinity. -/
def IsNegligible (a b : Word) : Prop := (isZero a = true ∧ isZero b = false) ∨ (isFinite a = true ∧ isInf b = true)

theorem isNegligible_fabs (h : IsNegligible a b) : IsNegligible (fabs a) (fabs b) := by
  simpa [IsNegligible] using h

theorem IsNegligible.isFinite_eq (h : IsNegligible a b) : isFinite a = true := by
  obtain ⟨ha, -⟩ | ⟨ha, -⟩ := h
  · rw [isFinite_iff, ((isZero_iff a).1 ha).1]
    decide
  · exact ha

theorem IsNegligible.isNaN_eq (h : IsNegligible a b) : isNaN a = false := isNaN_of_isFinite h.isFinite_eq

theorem IsNegligible.magnitude_lt (h : IsNegligible a b) : magnitude a < magnitude b := by
  obtain ⟨ha, hb⟩ | ⟨ha, hb⟩ := h
  · rw [(magnitude_zero_iff a).2 ha]
    exact (magnitude_pos_iff b).2 hb
  · rw [magnitude_of_isInf hb]
    exact magnitude_lt_of_isFinite ha

/-- The ratio of such words is a zero (R88). -/
theorem IsNegligible.fdiv_eq (p : Params) (h : IsNegligible a b) (hb : isNaN b = false) :
    fdiv p a b = zeroOf (signBit a ^^ signBit b) := by
  have ha := h.isNaN_eq
  have hb0 := (magnitude_pos_iff b).1 (Nat.zero_lt_of_lt h.magnitude_lt)
  have hainf := isInf_of_isFinite h.isFinite_eq
  obtain ⟨h0, -⟩ | ⟨-, hinf⟩ := h
  · simp [fdiv, ha, hb, hainf, hb0, h0]
  · simp [fdiv, ha, hb, hainf, hb0, hinf]

/-- A word that is no NaN and no larger than a finite one is finite: the infinities lie beyond (R81). -/
theorem isFinite_of_magnitude_le (hw : isNaN w = false) (hm : isFinite m = true) (h : magnitude w ≤ magnitude m) :
    isFinite w = true := by
  by_contra hfin
  rw [magnitude_of_isInf (isInf_of_not_isFinite (Bool.eq_false_iff.2 hfin) hw)] at h
  exact (magnitude_lt_of_isFinite hm).not_ge h

/-- Words without a sign are in the order of their magnitudes (R89). -/
theorem flt_iff_magnitude_lt (ha : isNaN a = false) (hb : isNaN b = false) (hs : signBit a = false)
    (ht : signBit b = false) : flt a b = true ↔ magnitude a < magnitude b := by
  rw [flt_iff, value_of_signBit_false hs, value_of_signBit_false ht, Int.ofNat_lt]
  simp [ha, hb]

/-- The ratio of two words without a sign, the smaller over the larger, is at most one, unless both are zeros or both
are infinities. -/
theorem isWithin_fdiv (ha : isNaN a = false) (hb : isNaN b = false) (hs : signBit a = false) (ht : signBit b = false)
    (hzero : ¬(isZero a = true ∧ isZero b = true)) (hinf : ¬(isInf a = true ∧ isInf b = true))
    (h : magnitude a ≤ magnitude b) : IsWithin false ONE (fdiv params a b) := by
  have hsign : (signBit a ^^ signBit b) = false := by rw [hs, ht, Bool.xor_self]
  cases hfin : isFinite b
  · have hbinf := isInf_of_not_isFinite hfin hb
    have hafin : isFinite a = true := by
      by_contra hafin
      exact hinf ⟨isInf_of_not_isFinite (Bool.eq_false_iff.2 hafin) ha, hbinf⟩
    rw [IsNegligible.fdiv_eq params (.inr ⟨hafin, hbinf⟩) hb, hsign]
    exact isWithin_zeroOf false ONE
  · simp only [← magnitude_zero_iff] at hzero
    have hpos : 0 < magnitude b := by omega
    rw [fdiv_eq_round32 (isFinite_of_magnitude_le ha hfin h) hfin ((magnitude_pos_iff b).1 hpos), hsign]
    refine isWithin_round32 false hpos (by decide) ?_
    rw [magnitude_ONE, Nat.mul_comm (2 ^ 149)]
    exact Nat.mul_le_mul_right _ h

end

/-! ### The kernel (R175) -/

/-- The kernel maps `[0, 1]` into `[0, 1]`: its numerator is a term of its denominator, which is at least one. -/
theorem isWithin_rat {u : Word} (hu : IsWithin false ONE u) : IsWithin false ONE (rat params u) := by
  have hone : IsWithin false ONE ONE := isWithin_self (by decide) (by decide)
  have hB : IsWithin false params.atanB params.atanB := isWithin_self (by decide) (by decide)
  have hbu : IsWithin false ONE (fmul params params.atanB u) := isWithin_fmul hB hu (by decide) (by decide)
  have huu : IsWithin false ONE (fmul params u u) := isWithin_fmul hu hu (by decide) (by decide)
  rw [rat, addProduct_params]
  generalize fmul params params.atanB u = bu at *
  generalize fmul params u u = uu at *
  obtain ⟨hn, -, -⟩ := isWithin_fadd_of_pos (w := TWO) hbu huu (by decide) (by decide)
  obtain ⟨hc, hone_le, -⟩ := isWithin_fadd_of_pos (w := TWO) hone hbu (by decide) (by decide)
  obtain ⟨hd, hc_le, hn_le⟩ := isWithin_fadd_of_pos (w := FOUR) hc hn (by decide) (by decide)
  have hd0 : magnitude (fadd params (fadd params ONE bu) (fadd params bu uu)) ≠ 0 := by
    have := hone_le.trans hc_le
    rw [magnitude_ONE] at this
    omega
  refine isWithin_fdiv (isNaN_of_isFinite hn.isFinite_eq) (isNaN_of_isFinite hd.isFinite_eq) hn.signBit_eq
    hd.signBit_eq ?_ ?_ hn_le
  · exact fun hz => hd0 ((magnitude_zero_iff _).2 hz.2)
  · simp [isInf_of_isFinite hn.isFinite_eq]

/-- The folded ratio stays in `[0, 1]` (R176, R178). -/
theorem isWithin_one_sub_rat {u : Word} (hu : IsWithin false ONE u) :
    IsWithin false ONE (fsub params ONE (rat params u)) :=
  isWithin_fsub (by decide) (by decide) (isWithin_rat hu)

/-! ### ATANNORM and ATAN (R176, R177) -/

/-- `q` of R176: the angle of a word without a sign, in quarter-turns. -/
def foldedAngle (t : Word) : Word :=
  if flt ONE t then fsub params ONE (rat params (fdiv params ONE t)) else rat params t

theorem isWithin_foldedAngle {t : Word} (ht : isNaN t = false) (hs : signBit t = false) :
    IsWithin false ONE (foldedAngle t) := by
  unfold foldedAngle
  split_ifs with hlt <;> rw [flt_iff_magnitude_lt (by decide) ht (by decide) hs] at hlt
  · have hzero : isZero ONE = false := by decide
    have hinf : isInf ONE = false := by decide
    exact isWithin_one_sub_rat
      (isWithin_fdiv (by decide) ht (by decide) hs (by simp [hzero]) (by simp [hinf]) hlt.le)
  · have hle := not_lt.1 hlt
    exact isWithin_rat ⟨isFinite_of_magnitude_le ht (by decide) hle, hs, hle⟩

/-- The sign bit of one word put into a word that has none (R176). -/
theorem signMask_or {q : Word} (a : Word) (hq : signBit q = false) :
    (a &&& 0x80000000#32) ||| q = opCopySign q a := by
  have hsign : (0x80000000#32).getLsbD 31 = true := by decide
  have hlow : ∀ i < 31, (0x80000000#32).getLsbD i = false := by decide
  rw [opCopySign_eq_ofFields]
  apply eq_of_fields
  · rw [signBit] at hq
    rw [signBit_ofFields, signBit, BitVec.getLsbD_or, BitVec.getLsbD_and, hsign, hq, Bool.and_true, Bool.or_false,
      signBit]
  · rw [expBits_ofFields]
    ext i hi
    simp [expBits, hlow (23 + i) (by omega)]
  · rw [mantBits_ofFields]
    ext i hi
    simp [mantBits, hlow i (by omega)]

/-- `ATANNORM` is the angle of the operand's magnitude with the operand's sign. -/
theorem opAtanNorm_eq {a : Word} (h : isNaN a = false) :
    opAtanNorm params a = opCopySign (foldedAngle (fabs a)) a := by
  have hq := isWithin_foldedAngle (t := fabs a) (by rwa [isNaN_fabs]) (signBit_fabs a)
  rw [← signMask_or a hq.signBit_eq, opAtanNorm, h]
  rfl

theorem isWithin_opAtanNorm {a : Word} (h : isNaN a = false) : IsWithin (signBit a) ONE (opAtanNorm params a) := by
  obtain ⟨hfin, -, hle⟩ := isWithin_foldedAngle (t := fabs a) (by rwa [isNaN_fabs]) (signBit_fabs a)
  rw [opAtanNorm_eq h]
  exact ⟨by rwa [isFinite_opCopySign], signBit_opCopySign _ a, by rwa [magnitude_opCopySign]⟩

theorem isWithin_FRAC_PI_2 : IsWithin false FRAC_PI_2 FRAC_PI_2 := isWithin_self (by decide) (by decide)

theorem isWithin_opAtan {a : Word} (h : isNaN a = false) : IsWithin (signBit a) FRAC_PI_2 (opAtan params a) := by
  rw [← Bool.false_xor (signBit a)]
  exact isWithin_fmul isWithin_FRAC_PI_2 (isWithin_opAtanNorm h) (by decide) (by decide)

theorem fabs_fneg (w : Word) : fabs (fneg w) = fabs w := by
  apply eq_of_fields <;> simp

theorem opCopySign_fneg (q a : Word) : opCopySign q (fneg a) = fneg (opCopySign q a) := by
  rw [opCopySign_eq_ofFields, opCopySign_eq_ofFields, signBit_fneg, fneg_ofFields]

theorem opAtanNorm_fneg {a : Word} (h : isNaN a = false) :
    opAtanNorm params (fneg a) = fneg (opAtanNorm params a) := by
  rw [opAtanNorm_eq h, opAtanNorm_eq (by rwa [isNaN_fneg]), fabs_fneg, opCopySign_fneg]

theorem opAtan_fneg {a : Word} (h : isNaN a = false) : opAtan params (fneg a) = fneg (opAtan params a) := by
  rw [opAtan, opAtanNorm_fneg h, fmul_fneg (by decide) (isWithin_opAtanNorm h).isFinite_eq, opAtan]

theorem opAtanNorm_of_isNaN (p : Params) {a : Word} (h : isNaN a = true) : opAtanNorm p a = p.cnan := if_pos h

/-! ### ATAN2NORM (R178) -/

section
variable {x y : Word}

/-- The angle of two magnitudes lies in `[0, 1]`: the smaller is divided by the larger. -/
theorem isWithin_octantAngle {ay ax : Word} (hy : isNaN ay = false) (hx : isNaN ax = false) (hsy : signBit ay = false)
    (hsx : signBit ax = false) (hinf : ¬(isInf ay = true ∧ isInf ax = true)) :
    IsWithin false ONE (octantAngle params ay ax) := by
  unfold octantAngle
  split_ifs with hzero hlt
  · exact isWithin_zeroOf false ONE
  all_goals
    rw [Bool.and_eq_true] at hzero
    rw [flt_iff_magnitude_lt hx hy hsx hsy] at hlt
  · exact isWithin_one_sub_rat (isWithin_fdiv hx hy hsx hsy hzero (mt And.symm hinf) hlt.le)
  · exact isWithin_rat (isWithin_fdiv hy hx hsy hsx (mt And.symm hzero) hinf (not_lt.1 hlt))

/-- The quadrant is chosen by a test of each sign bit (R178). -/
theorem placeInQuadrant_eq (p : Params) (xNeg yNeg : Bool) (q : Word) :
    placeInQuadrant p xNeg yNeg q =
      if xNeg then (if yNeg then fadd p TWO q else fsub p TWO q) else (if yNeg then fsub p FOUR q else q) := by
  cases xNeg <;> cases yNeg <;> rfl

/-- The four quadrants of a first-quadrant angle make one turn, its end included. -/
theorem isWithin_placeInQuadrant (xNeg yNeg : Bool) {q : Word} (hq : IsWithin false ONE q) :
    IsWithin false FOUR (placeInQuadrant params xNeg yNeg q) := by
  have htwo : IsWithin false TWO TWO := isWithin_self (by decide) (by decide)
  unfold placeInQuadrant
  split
  · exact hq.mono (by decide)
  · exact (isWithin_fsub (by decide) (by decide) (hq.mono (by decide))).mono (by decide)
  · exact (isWithin_fadd_of_pos htwo hq (by decide) (by decide)).1
  · exact isWithin_fsub (by decide) (by decide) (hq.mono (by decide))

theorem opAtan2Norm_of_isNaN (p : Params) (h : isNaN y = true ∨ isNaN x = true) : opAtan2Norm p y x = p.cnan :=
  if_pos (by simpa using h.symm)

/-- Unless an operand is a NaN, `ATAN2NORM` is the angle of the magnitudes placed in its quadrant, wrapped at four. -/
theorem opAtan2Norm_eq (hy : isNaN y = false) (hx : isNaN x = false) {q : Word}
    (hq : octantAngle params (fabs y) (fabs x) = q) :
    opAtan2Norm params y x =
      if fle FOUR (placeInQuadrant params (signBit x) (signBit y) q) then ZERO
      else placeInQuadrant params (signBit x) (signBit y) q := by
  rw [opAtan2Norm, hy, hx, hq]
  rfl

/-- `ATAN2NORM` is a word without a sign and below four. -/
theorem opAtan2Norm_in_turn (hy : isNaN y = false) (hx : isNaN x = false)
    (hinf : ¬(isInf y = true ∧ isInf x = true)) :
    IsWithin false FOUR (opAtan2Norm params y x) ∧ flt (opAtan2Norm params y x) FOUR = true := by
  have hq : IsWithin false ONE (octantAngle params (fabs y) (fabs x)) :=
    isWithin_octantAngle (by simpa) (by simpa) (by simp) (by simp) (by simpa using hinf)
  have hth := isWithin_placeInQuadrant (signBit x) (signBit y) hq
  rw [opAtan2Norm_eq hy hx rfl]
  generalize placeInQuadrant params (signBit x) (signBit y) _ = th at *
  split_ifs with hwrap
  · exact ⟨isWithin_zeroOf false FOUR, by decide⟩
  · have hnan := isNaN_of_isFinite hth.isFinite_eq
    refine ⟨hth, flt_iff.2 ⟨hnan, by decide, ?_⟩⟩
    rw [fle_iff] at hwrap
    simp only [hnan, show isNaN FOUR = false by decide, true_and, not_le] at hwrap
    exact hwrap

end

/-! ### Zeros and infinities of ATAN2NORM (R178, D19) -/

section
variable {x y : Word}

/-- The ratio of the smaller to the larger ordinate or abscissa, folded where the ordinate is the larger. -/
theorem octantAngle_of_magnitude_ne (hy : isNaN y = false) (hx : isNaN x = false) :
    (magnitude x < magnitude y → octantAngle params (fabs y) (fabs x) =
      fsub params ONE (rat params (fdiv params (fabs x) (fabs y)))) ∧
    (magnitude y < magnitude x → octantAngle params (fabs y) (fabs x) =
      rat params (fdiv params (fabs y) (fabs x))) := by
  have hflt : flt (fabs x) (fabs y) = true ↔ magnitude x < magnitude y := by
    rw [flt_iff_magnitude_lt (by simpa) (by simpa) (by simp) (by simp), magnitude_fabs, magnitude_fabs]
  have hzero : magnitude x ≠ magnitude y → ¬(isZero (fabs x) && isZero (fabs y)) = true := by
    rw [Bool.and_eq_true, isZero_fabs, isZero_fabs, ← magnitude_zero_iff, ← magnitude_zero_iff]
    omega
  refine ⟨fun hlt => ?_, fun hgt => ?_⟩
  · rw [octantAngle, if_neg (hzero hlt.ne), if_pos (hflt.2 hlt)]
  · rw [octantAngle, if_neg (hzero hgt.ne'), if_neg (mt hflt.1 hgt.not_gt)]

/-- Beside a negligible abscissa the ordinate is a quarter turn away: the ratio is `+0`. -/
theorem octantAngle_of_negligible_abscissa (h : IsNegligible x y) (hy : isNaN y = false) :
    octantAngle params (fabs y) (fabs x) = ONE := by
  rw [(octantAngle_of_magnitude_ne hy h.isNaN_eq).1 h.magnitude_lt, (isNegligible_fabs h).fdiv_eq params (by simpa),
    signBit_fabs, signBit_fabs]
  decide +kernel

/-- Beside a negligible ordinate the abscissa is at angle zero. -/
theorem octantAngle_of_negligible_ordinate (h : IsNegligible y x) (hx : isNaN x = false) :
    octantAngle params (fabs y) (fabs x) = ZERO := by
  rw [(octantAngle_of_magnitude_ne h.isNaN_eq hx).2 h.magnitude_lt, (isNegligible_fabs h).fdiv_eq params (by simpa),
    signBit_fabs, signBit_fabs]
  decide +kernel

/-- Of two zeros no ratio is formed. -/
theorem octantAngle_of_isZero (hy : isZero y = true) (hx : isZero x = true) :
    octantAngle params (fabs y) (fabs x) = ZERO := by
  rw [octantAngle, isZero_fabs, isZero_fabs, hy, hx]
  rfl

/-- The ratio of two infinities is the canonical NaN, and so is all that is computed from it. -/
theorem octantAngle_of_isInf (hy : isInf y = true) (hx : isInf x = true) :
    octantAngle params (fabs y) (fabs x) = CNAN := by
  have hzero : isZero x = false := (isAtLeast_of_isInf (k := 0) (by norm_num) hx).isZero_eq
  have hlt : ¬flt (fabs x) (fabs y) = true := by
    rw [flt_iff, value_fabs, value_fabs, magnitude_of_isInf hx, magnitude_of_isInf hy]
    exact fun h => lt_irrefl _ h.2.2
  rw [octantAngle, if_neg (by simp [hzero]), if_neg hlt,
    fdiv_of_isInf_of_isInf params (by rwa [isInf_fabs]) (by rwa [isInf_fabs])]
  decide

/-- A quarter turn is placed at one or three by the sign of the ordinate. -/
theorem opAtan2Norm_of_octantAngle_eq_ONE (hy : isNaN y = false) (hx : isNaN x = false)
    (h : octantAngle params (fabs y) (fabs x) = ONE) :
    opAtan2Norm params y x = if signBit y then 0x40400000#32 else 0x3F800000#32 := by
  rw [opAtan2Norm_eq hy hx h]
  cases signBit x <;> cases signBit y <;> decide +kernel

/-- The angle zero is placed at zero or two by the sign of the abscissa; at four it is wrapped. -/
theorem opAtan2Norm_of_octantAngle_eq_ZERO (hy : isNaN y = false) (hx : isNaN x = false)
    (h : octantAngle params (fabs y) (fabs x) = ZERO) :
    opAtan2Norm params y x = if signBit x then 0x40000000#32 else 0x00000000#32 := by
  rw [opAtan2Norm_eq hy hx h]
  cases signBit x <;> cases signBit y <;> decide +kernel

theorem opAtan2Norm_of_octantAngle_eq_CNAN (hy : isNaN y = false) (hx : isNaN x = false)
    (h : octantAngle params (fabs y) (fabs x) = CNAN) : opAtan2Norm params y x = CNAN := by
  rw [opAtan2Norm_eq hy hx h]
  cases signBit x <;> cases signBit y <;> decide

theorem opAtan2Norm_of_negligible_abscissa (h : IsNegligible x y) (hy : isNaN y = false) :
    opAtan2Norm params y x = if signBit y then 0x40400000#32 else 0x3F800000#32 :=
  opAtan2Norm_of_octantAngle_eq_ONE hy h.isNaN_eq (octantAngle_of_negligible_abscissa h hy)

theorem opAtan2Norm_of_negligible_ordinate (h : IsNegligible y x) (hx : isNaN x = false) :
    opAtan2Norm params y x = if signBit x then 0x40000000#32 else 0x00000000#32 :=
  opAtan2Norm_of_octantAngle_eq_ZERO h.isNaN_eq hx (octantAngle_of_negligible_ordinate h hx)

end

/-! ### ATAN2 (R179) -/

/-- Above two, an angle less a full turn is at most `0x3FFFFFFE` in magnitude, two quanta short of two, because the
first word above two is `0x40000001`. -/
theorem isWithin_fsub_FOUR {n : Word} (hn : IsWithin false FOUR n) (hlo : flt TWO n = true) :
    ∃ s, IsWithin s 0x3FFFFFFE#32 (fsub params n FOUR) := by
  have hle := hn.magnitude_le
  have hnext : magnitude 0x40000001#32 ≤ magnitude n := by
    have hgt := (flt_iff_magnitude_lt (by decide) (isNaN_of_isFinite hn.isFinite_eq) (by decide) hn.signBit_eq).1 hlo
    refine magnitude_le_magnitude ?_
    have := mt (magnitude_le_magnitude (v := n) (w := TWO)) (not_le.2 hgt)
    rw [not_le] at this
    exact this
  have hsum : magnitude FOUR ≤ magnitude 0x3FFFFFFE#32 + magnitude 0x40000001#32 := by decide
  have hdiff : value n + value (fneg FOUR) = magnitude n - magnitude FOUR := by
    rw [value_of_signBit_false hn.signBit_eq, value_of_signBit_true (by decide), magnitude_fneg, sub_eq_add_neg]
  exact ⟨_, isWithin_fadd hn.isFinite_eq (by decide) hn.signBit_eq (by decide) (by omega)⟩

/-- The comparisons with `-π` and `π` are those of the value with the magnitude of `π`. -/
theorem in_range_of_value {r : Word} (hfin : isFinite r = true) (hlo : -(magnitude 0x40490FDB#32 : ℤ) < value r)
    (hhi : value r ≤ magnitude 0x40490FDB#32) : flt 0xC0490FDB#32 r = true ∧ fle r 0x40490FDB#32 = true := by
  have hnan := isNaN_of_isFinite hfin
  exact ⟨flt_iff.2 ⟨by decide, hnan, hlo⟩, fle_iff.2 ⟨hnan, by decide, hhi⟩⟩

/-- `ATAN2` lies in `(-π, π]`: times `π/2`, the words short of minus two are rounded to at most `0x40490FDA` in
magnitude, the word below `π`. -/
theorem opAtan2_in_range {x y : Word} (hy : isNaN y = false) (hx : isNaN x = false)
    (hinf : ¬(isInf y = true ∧ isInf x = true)) :
    flt 0xC0490FDB#32 (opAtan2 params y x) = true ∧ fle (opAtan2 params y x) 0x40490FDB#32 = true := by
  obtain ⟨hn, -⟩ := opAtan2Norm_in_turn hy hx hinf
  rw [opAtan2]
  generalize opAtan2Norm params y x = n at *
  have hnan := isNaN_of_isFinite hn.isFinite_eq
  split_ifs with hlo
  · obtain ⟨s, hd⟩ := isWithin_fsub_FOUR hn hlo
    have hr := isWithin_fmul (w := 0x40490FDA#32) isWithin_FRAC_PI_2 hd (by decide) (by decide)
    have hle := abs_le.1 ((abs_value _).le.trans (Int.ofNat_le.2 hr.magnitude_le))
    have hlt : magnitude 0x40490FDA#32 < magnitude 0x40490FDB#32 := by decide
    exact in_range_of_value hr.isFinite_eq (by omega) (by omega)
  · rw [flt_iff_magnitude_lt (by decide) hnan (by decide) hn.signBit_eq, not_lt] at hlo
    have hr := isWithin_fmul (w := 0x40490FDB#32) isWithin_FRAC_PI_2 ⟨hn.isFinite_eq, hn.signBit_eq, hlo⟩
      (by decide) (by decide)
    have hval := value_of_signBit_false hr.signBit_eq
    have hle := hr.magnitude_le
    have hpos : 0 < magnitude 0x40490FDB#32 := by decide
    exact in_range_of_value hr.isFinite_eq (by omega) (by omega)

end Sys2Proof.Machine

open Sys2Proof Sys2Proof.Machine Sys2Proof.Config Sys2Proof.Safety

/-- Settles O31: the sign is that of the operand put into a word computed from its magnitude (`opAtanNorm_eq`), and the
multiplication by `π/2` takes it over (`fmul_fneg`). -/
theorem arctangentIsOddBitForBit : Obligations.ArctangentIsOddBitForBit :=
  fun _ h => ⟨opAtanNorm_fneg h, opAtan_fneg h⟩

/-- Settles O32: the kernel stays in `[0, 1]` and so does one less the kernel (`isWithin_rat`, `isWithin_one_sub_rat`),
and `π/2` times a word of at most one is at most `π/2`. -/
theorem arctangentStaysInItsRange : Obligations.ArctangentStaysInItsRange := by
  refine fun a s => ⟨fun h => ?_, fun h => ⟨?_, ?_⟩⟩
  · have hr := isWithin_opAtanNorm h
    have hq := isWithin_opAtan h
    exact ⟨_, _, everyInstructionAnswersOnce (.atannorm a) s, hr.signBit_eq, hr.fle_fabs (by decide) (by decide),
      everyInstructionAnswersOnce (.atan a) s, hq.signBit_eq, hq.fle_fabs (by decide) (by decide)⟩
  · exact answersWith_of_result_eq (.atannorm a) s (opAtanNorm_of_isNaN params h)
  · have hr : opAtan params a = CNAN := by
      rw [opAtan, opAtanNorm_of_isNaN params h]
      decide
    exact answersWith_of_result_eq (.atan a) s hr

/-- Settles O33: each quadrant keeps an angle of `[0, 1]` in `[0, 4]` (`isWithin_placeInQuadrant`), and four is
wrapped. -/
theorem fourQuadrantAngleStaysInOneTurn : Obligations.FourQuadrantAngleStaysInOneTurn := by
  intro a b s ha hb hinf
  obtain ⟨hr, hlt⟩ := opAtan2Norm_in_turn ha hb hinf
  refine ⟨_, everyInstructionAnswersOnce (.atan2norm a b) s, ?_, hlt⟩
  rw [fle_iff]
  exact ⟨by decide, isNaN_of_isFinite hr.isFinite_eq, value_of_signBit_false hr.signBit_eq ▸ Int.natCast_nonneg _⟩

/-- Settles O34: the quarter-turns of O33, above two less four (`isWithin_fsub_FOUR`), times `π/2`. -/
theorem fourQuadrantAngleInRadiansStaysInItsRange : Obligations.FourQuadrantAngleInRadiansStaysInItsRange :=
  fun a b s ha hb hinf => ⟨_, everyInstructionAnswersOnce (.atan2 a b) s, opAtan2_in_range ha hb hinf⟩

/-- Settles O35: the octant angle is `+0` or 1 where one of the magnitudes is negligible beside the other
(`octantAngle_of_negligible_ordinate`, `octantAngle_of_negligible_abscissa`), and the signs place it. -/
theorem fourQuadrantAngleAtZerosAndInfinities : Obligations.FourQuadrantAngleAtZerosAndInfinities := by
  intro a b s
  refine ⟨fun ha hb => ?_, fun ha ha0 hb => ?_, fun ha hb hb0 => ?_, fun ha hb => ?_, fun ha hb => ?_, fun ha hb => ?_,
    fun h => ?_⟩ <;> refine answersWith_of_result_eq (.atan2norm a b) s ?_
  · exact opAtan2Norm_of_octantAngle_eq_ZERO (isNaN_of_isZero ha) (isNaN_of_isZero hb) (octantAngle_of_isZero ha hb)
  · exact opAtan2Norm_of_negligible_abscissa (.inl ⟨hb, ha0⟩) (isNaN_of_isFinite ha)
  · exact opAtan2Norm_of_negligible_ordinate (.inl ⟨ha, hb0⟩) (isNaN_of_isFinite hb)
  · exact opAtan2Norm_of_negligible_abscissa (.inr ⟨hb, ha⟩) (isNaN_of_isInf ha)
  · exact opAtan2Norm_of_negligible_ordinate (.inr ⟨ha, hb⟩) (isNaN_of_isInf hb)
  · exact opAtan2Norm_of_octantAngle_eq_CNAN (isNaN_of_isInf ha) (isNaN_of_isInf hb) (octantAngle_of_isInf ha hb)
  · exact opAtan2Norm_of_isNaN params h

/-- Settles O30: with the default parameters put in, the definitions are the datapath; the kernel's sum is rounded apart
from its product (`addProduct_params`), a magnitude is a zero if the operand is, and the four quadrants are the two
tests of the sign bits. -/
theorem arctangentsFollowTheirDatapath : Obligations.ArctangentsFollowTheirDatapath := by
  intro a b s rat atanNorm q1 th atan2Norm
  have hrat : Machine.rat params = rat := by
    funext u
    rw [Machine.rat, addProduct_params]
    rfl
  have hatanNorm : opAtanNorm params a = atanNorm := by rw [opAtanNorm, hrat]; rfl
  have hq1 : octantAngle params (fabs a) (fabs b) = q1 := by rw [octantAngle, isZero_fabs, isZero_fabs, hrat]; rfl
  have hth : placeInQuadrant params (signBit b) (signBit a) q1 = th := placeInQuadrant_eq params _ _ _
  have hatan2Norm : opAtan2Norm params a b = atan2Norm := by rw [opAtan2Norm, hq1, hth]; rfl
  refine ⟨answersWith_of_result_eq (.atannorm a) s hatanNorm, answersWith_of_result_eq (.atan a) s ?_,
    answersWith_of_result_eq (.atan2norm a b) s hatan2Norm, answersWith_of_result_eq (.atan2 a b) s ?_⟩
  · rw [← hatanNorm]; rfl
  · rw [← hatan2Norm]; rfl

end

/-! PROOFS of the statements of `46_logexp.md`: the tests of `LN` and `EXP` in their order, magnitudes that bound the
logarithm of every positive finite word, and a series that a tiny argument leaves at one (R190 to R197). -/
section
namespace Sys2Proof.Machine

open Sys2Proof.Config Sys2Proof.Safety

/-! ### LN: one equation per test (R191, R192) -/

section
variable {a : Word}

theorem opLn_of_isNaN (p : Params) (h : isNaN a = true) : opLn p a = p.cnan := if_pos h

theorem opLn_of_isZero (p : Params) (h : isZero a = true) : opLn p a = NINF := by
  simp [opLn, isNaN_of_isZero h, h]

theorem opLn_of_negative (p : Params) (h : Negative a) : opLn p a = p.cnan := by
  obtain ⟨hs, h0, hnan⟩ := h
  simp [opLn, hs, h0, hnan]

theorem opLn_PINF (p : Params) : opLn p PINF = PINF := by
  have htests : isNaN PINF = false ∧ isZero PINF = false ∧ signBit PINF = false := by decide
  simp [opLn, htests]

theorem opLn_of_positive (p : Params) (hfin : isFinite a = true) (h0 : isZero a = false) (hs : signBit a = false) :
    opLn p a = productAdd p (i2f p (expValue a)) LN_2 (lnPoly p (opNorm12 a)) := by
  have hinf : a ≠ PINF := by
    rintro rfl
    exact absurd hfin (by decide)
  simp [opLn, isNaN_of_isFinite hfin, h0, hs, hinf]

/-! ### EXP: one equation per exit (R193) -/

theorem opExp_of_isNaN (p : Params) (h : isNaN a = true) : opExp p a = p.cnan := if_pos h

theorem opExp_of_quotient_PINF (p : Params) (h : isNaN a = false) (ht : fmul p a LOG2_E = PINF) :
    opExp p a = PINF := by
  simp [opExp, h, ht]

theorem opExp_of_quotient_NINF (p : Params) (h : isNaN a = false) (ht : fmul p a LOG2_E = NINF) :
    opExp p a = ZERO := by
  simp [opExp, h, ht, show NINF ≠ PINF by decide]

theorem opExp_eq_expReconstruct {p : Params} {t : Word} (h : isNaN a = false) (ht : fmul p a LOG2_E = t)
    (hpinf : t ≠ PINF) (hninf : t ≠ NINF) :
    opExp p a = expReconstruct (expPasses p (fmul p (fsub p t (opRound p t)) LN_2) p.expTerms ONE)
      (toInt (opRound p t)) := by
  simp [opExp, h, ht, hpinf, hninf]

end

/-! ### The exponent field of the result (R193) -/

section
variable {s : Word} {k : Int}

theorem expReconstruct_of_overflow (h : 255 ≤ (expBits s).toNat + k) : expReconstruct s k = PINF := if_pos h

theorem expReconstruct_of_underflow (h : (expBits s).toNat + k ≤ 0) : expReconstruct s k = ZERO := by
  rw [expReconstruct, if_neg (by omega), if_pos h]

theorem expReconstruct_of_in_range (hlo : 0 < (expBits s).toNat + k) (hhi : (expBits s).toNat + k < 255) :
    expReconstruct s k = opSetExp s (BitVec.ofInt 32 ((expBits s).toNat + k)) := by
  rw [expReconstruct, if_neg (by omega), if_neg (by omega)]

/-- The exponent field that is set lies in `1 .. 254`. -/
theorem isSub_expReconstruct (s : Word) (k : Int) : isSub (expReconstruct s k) = false := by
  obtain hge | hle | ⟨hlo, hhi⟩ : 255 ≤ (expBits s).toNat + k ∨ (expBits s).toNat + k ≤ 0 ∨
      0 < (expBits s).toNat + k ∧ (expBits s).toNat + k < 255 := by omega
  · rw [expReconstruct_of_overflow hge]; decide
  · rw [expReconstruct_of_underflow hle]; decide
  · rw [expReconstruct_of_in_range hlo hhi, opSetExp_eq_ofFields, Bool.eq_false_iff, Ne, isSub_iff, expBits_ofFields]
    rintro ⟨hzero, -⟩
    rw [← BitVec.toNat_inj, BitVec.extractLsb'_toNat, BitVec.toNat_ofInt, BitVec.toNat_zero] at hzero
    omega

/-- The two classes need different exponent fields (R82). -/
theorem isSub_of_isNaN {w : Word} (h : isNaN w = true) : isSub w = false := by
  simp [isSub, ((isNaN_iff w).1 h).1]

end

/-! ### Upper bounds of magnitudes -/

section
variable {a b : Word}

/-- The infinities and the NaNs lie beyond `2^277` units (R81). -/
theorem isFinite_of_magnitude_lt {w : Word} (h : magnitude w < 2 ^ 277) : isFinite w = true := by
  rw [isFinite_iff]
  intro he
  have hge := binade_le_magnitude (w := w) (by rw [he]; decide)
  rw [he] at hge
  exact hge.not_gt h

theorem isFinite_of_le_two_pow {w : Word} {k : Nat} (h : magnitude w ≤ 2 ^ k) (hk : k ≤ 276) : isFinite w = true :=
  isFinite_of_magnitude_lt (h.trans_lt (Nat.pow_lt_pow_right one_lt_two (by omega)))

/-- Rounding does not take a real beyond a power of two (R84). -/
theorem magnitude_round32_le (s : Bool) {k N D : Nat} (hk : k ≤ 276) (hD : 0 < D) (h : N ≤ 2 ^ k * D) :
    magnitude (round32 tiesToEven s N D) ≤ 2 ^ k := by
  have hlt : 1 * 2 ^ k < 2 ^ 277 := by
    rw [one_mul]
    exact Nat.pow_lt_pow_right one_lt_two (by omega)
  have hword := magnitude_ofMagnitude false (by norm_num) hlt
  rw [one_mul] at hword hlt
  rw [← hword] at h ⊢
  exact (isWithin_round32 s hD (isFinite_ofMagnitude false hlt) h).magnitude_le

/-- Of a product the exponents of the bounds add up; one is `2^149` units. -/
theorem magnitude_fmul_le {i j k : Nat} (ha : magnitude a ≤ 2 ^ i) (hb : magnitude b ≤ 2 ^ j) (hi : i ≤ 276)
    (hj : j ≤ 276) (hk : k ≤ 276) (hij : i + j = k + 149) : magnitude (fmul params a b) ≤ 2 ^ k := by
  rw [fmul_eq_round32 (isFinite_of_le_two_pow ha hi) (isFinite_of_le_two_pow hb hj)]
  refine magnitude_round32_le _ hk (Nat.two_pow_pos 149) ?_
  rw [← pow_add, ← hij, pow_add]
  exact Nat.mul_le_mul ha hb

/-- A sum is at most twice a bound of both terms. -/
theorem magnitude_fadd_le {k : Nat} (ha : magnitude a ≤ 2 ^ k) (hb : magnitude b ≤ 2 ^ k) (hk : k ≤ 275) :
    magnitude (fadd params a b) ≤ 2 ^ (k + 1) := by
  have hafin := isFinite_of_le_two_pow ha (by omega)
  have hbfin := isFinite_of_le_two_pow hb (by omega)
  by_cases h : value a + value b = 0
  · have hzero := value_fadd_of_value_eq (c := ZERO) hafin hbfin (by decide) h
    rw [← value_natAbs, hzero]
    exact Nat.zero_le _
  · rw [fadd_of_isFinite params hafin hbfin h]
    refine magnitude_round32_le _ (by omega) one_pos ?_
    have hsum := Int.natAbs_add_le (value a) (value b)
    rw [value_natAbs, value_natAbs] at hsum
    omega

/-- The quotient by a word of at least one is no larger than the dividend (R88). -/
theorem magnitude_fdiv_le {k : Nat} (ha : magnitude a ≤ 2 ^ k) (hk : k ≤ 276) (hb : isFinite b = true)
    (hone : 2 ^ 149 ≤ magnitude b) : magnitude (fdiv params a b) ≤ 2 ^ k := by
  have hpos : 0 < magnitude b := (Nat.two_pow_pos 149).trans_le hone
  rw [fdiv_eq_round32 (isFinite_of_le_two_pow ha hk) hb ((magnitude_pos_iff b).1 hpos)]
  exact magnitude_round32_le _ hk hpos (Nat.mul_le_mul ha hone)

theorem magnitude_i2f {n : Int} (h : n.natAbs < 2 ^ 24) : magnitude (i2f params n) = n.natAbs * 2 ^ 149 := by
  rw [← value_natAbs, (i2f_exact params_rounding h).2, Int.natAbs_mul]
  rfl

end

/-! ### The logarithm of a positive finite word is finite (R191) -/

/-- One step of the Horner form, for an argument below two. -/
theorem magnitude_addProduct_le {c q m : Word} {k : Nat} (hc : magnitude c ≤ 2 ^ (k + 1)) (hq : magnitude q ≤ 2 ^ k)
    (hm : magnitude m ≤ 2 ^ 150) (hk : k ≤ 274) : magnitude (addProduct params c q m) ≤ 2 ^ (k + 2) :=
  magnitude_fadd_le hc (magnitude_fmul_le hq hm (by omega) (by omega) (by omega) rfl) (by omega)

theorem magnitude_lnPoly_le {m : Word} (hm : magnitude m ≤ 2 ^ 150) : magnitude (lnPoly params m) ≤ 2 ^ 157 := by
  have h4 : magnitude params.lnC4 ≤ 2 ^ 149 := by decide +kernel
  have h3 := magnitude_addProduct_le (c := params.lnC3) (by decide +kernel) h4 hm (by norm_num)
  have h2 := magnitude_addProduct_le (c := params.lnC2) (by decide +kernel) h3 hm (by norm_num)
  have h1 := magnitude_addProduct_le (c := params.lnC1) (by decide +kernel) h2 hm (by norm_num)
  have h0 := magnitude_addProduct_le (c := params.lnC0) (by decide +kernel) h1 hm (by norm_num)
  exact h0

theorem magnitude_opNorm12_le (a : Word) : magnitude (opNorm12 a) ≤ 2 ^ 150 := by
  have he : (expBits (opNorm12 a)).toNat = 127 := by
    rw [opNorm12_eq_opSetExp, opSetExp_eq_ofFields, expBits_ofFields]
    rfl
  have h := magnitude_lt_binade (opNorm12 a)
  rw [he] at h
  exact h.le

/-- The exponent of a finite word lies in `-127 .. 127`, so its product with `ln 2` is bounded as the polynomial is. -/
theorem isFinite_opLn {a : Word} (hfin : isFinite a = true) (h0 : isZero a = false) (hs : signBit a = false) :
    isFinite (opLn params a) = true := by
  have he : (expValue a).natAbs ≤ 2 ^ 7 := by
    have := (expBits a).isLt
    rw [expValue]
    omega
  have hexp : magnitude (i2f params (expValue a)) ≤ 2 ^ 156 := by
    rw [magnitude_i2f (he.trans_lt (by norm_num))]
    exact (Nat.mul_le_mul_right _ he).trans (by norm_num)
  have hprod : magnitude (fmul params (i2f params (expValue a)) LN_2) ≤ 2 ^ 157 :=
    magnitude_fmul_le (j := 150) hexp (by decide +kernel) (by norm_num) (by norm_num) (by norm_num) rfl
  rw [opLn_of_positive params hfin h0 hs, productAdd_params]
  exact isFinite_of_le_two_pow
    (magnitude_fadd_le hprod (magnitude_lnPoly_le (magnitude_opNorm12_le a)) (by norm_num)) (by norm_num)

/-! ### The exponential of a tiny word (R193) -/

/-- A term of at most `2^-25` is lost beside one. At `-2^-25` itself, halfway to the next word below one, the tie is
rounded to the even word. -/
theorem fadd_ONE_of_tiny {b : Word} (h : magnitude b ≤ 2 ^ 124) : fadd params ONE b = ONE := by
  have hfin := isFinite_of_le_two_pow h (by norm_num)
  obtain heq | hlt := h.eq_or_lt
  · rw [← ofMagnitude_magnitude hfin, heq]
    cases signBit b <;> decide +kernel
  · have hone := magnitude_ONE
    exact (fadd_absorbs 125 (by decide) hfin (by omega) (by omega)).1

/-- Each pass adds a tiny term to one. -/
theorem expPasses_of_tiny {rr : Word} (h : magnitude rr ≤ 2 ^ 124) :
    ∀ n : Nat, n < 2 ^ 24 → expPasses params rr n ONE = ONE
  | 0, _ => rfl
  | n + 1, hn => by
    have hdivisor : 2 ^ 149 ≤ magnitude (i2f params (n + 1 : Nat)) := by
      rw [magnitude_i2f (n := (n + 1 : Nat)) hn, Int.natAbs_natCast]
      exact Nat.le_mul_of_pos_left _ n.succ_pos
    have hterm : magnitude (fdiv params rr (i2f params (n + 1 : Nat))) ≤ 2 ^ 124 :=
      magnitude_fdiv_le h (by norm_num) (i2f_exact params_rounding (n := (n + 1 : Nat)) hn).1 hdivisor
    have hprod : magnitude (fmul params (fdiv params rr (i2f params (n + 1 : Nat))) ONE) ≤ 2 ^ 124 :=
      magnitude_fmul_le hterm magnitude_ONE.le (by norm_num) (by norm_num) (by norm_num) rfl
    rw [expPasses, addProduct_params, fadd_ONE_of_tiny hprod]
    exact expPasses_of_tiny h n (Nat.lt_of_succ_lt hn)

/-- A word below one half is rounded to a zero, which leaves the word in its subtraction (R136, R193). -/
theorem argument_split_of_small {t : Word} (h : magnitude t < 2 ^ 148) :
    toInt (opRound params t) = 0 ∧ magnitude (fsub params t (opRound params t)) = magnitude t := by
  have hfin : isFinite t = true := isFinite_of_le_two_pow h.le (by norm_num)
  have hround := isIntegerWord_opRound hfin
  have hzero : value (opRound params t) = 0 := by
    rw [hround.value_eq, show (2 * magnitude t + 2 ^ 149) / 2 ^ 150 = 0 by omega]
    simp
  have hdiff : value (fsub params t (opRound params t)) = value t :=
    value_fadd_of_value_eq hfin (by rw [isFinite_fneg, hround.isFinite_eq]) hfin (by rw [value_fneg, hzero]; omega)
  exact ⟨by rw [toInt, hzero]; rfl, by rw [← value_natAbs, hdiff, value_natAbs]⟩

/-- From a word of at most `2^-25` the argument split leaves one of at most `2^-25`: the quotient by `ln 2` is at most
`0x3338AA3B`, which is `2^-25 · LOG2_E`, and `LOG2_E · LN_2` is below one. -/
theorem opExp_of_tiny {a : Word} (h : magnitude a ≤ 2 ^ 124) : opExp params a = ONE := by
  have hfin := isFinite_of_le_two_pow h (by norm_num)
  have hbound : magnitude 0x33000000#32 = 2 ^ 124 := magnitude_of_mantBits_zero (by decide) (by decide)
  have ha : IsWithin (signBit a) 0x33000000#32 a := ⟨hfin, rfl, hbound ▸ h⟩
  have hlog : IsWithin false LOG2_E LOG2_E := isWithin_self (by decide) (by decide)
  have hln : IsWithin false LN_2 LN_2 := isWithin_self (by decide) (by decide)
  have ht : IsWithin _ 0x3338AA3B#32 (fmul params a LOG2_E) := isWithin_fmul ha hlog (by decide) (by decide +kernel)
  generalize htdef : fmul params a LOG2_E = t at ht
  obtain ⟨hk, hrest⟩ := argument_split_of_small (t := t) (ht.magnitude_le.trans_lt (by decide +kernel))
  have hr : IsWithin _ 0x3338AA3B#32 (fsub params t (opRound params t)) :=
    ⟨isFinite_of_magnitude_lt (hrest ▸ magnitude_lt_of_isFinite ht.isFinite_eq), rfl, hrest ▸ ht.magnitude_le⟩
  have hrr := (isWithin_fmul (w := 0x33000000#32) hr hln (by decide) (by decide +kernel)).magnitude_le
  rw [hbound] at hrr
  have hinf := isInf_of_isFinite ht.isFinite_eq
  have hpinf : t ≠ PINF := by rintro rfl; exact absurd hinf (by decide)
  have hninf : t ≠ NINF := by rintro rfl; exact absurd hinf (by decide)
  rw [opExp_eq_expReconstruct (isNaN_of_isFinite hfin) htdef hpinf hninf, hk, expPasses_of_tiny hrr _ (by decide)]
  decide

end Sys2Proof.Machine

open Sys2Proof Sys2Proof.Machine Sys2Proof.Config Sys2Proof.Safety

/-- Settles O36: one equation of `opLn` per test, and past the tests the definition with the default parameters put in,
with the exponent field and the normalized word as numbers. -/
theorem logarithmTestsItsOperandThenAddsItsParts : Obligations.LogarithmTestsItsOperandThenAddsItsParts := by
  refine fun a s => ⟨fun h => ?_, fun h => ?_, fun h => ?_, ?_, fun hfin h0 hs => ⟨opNorm12 a, ?_, ?_⟩⟩
  · exact answersWith_of_result_eq (.ln a) s (opLn_of_isNaN params h)
  · exact answersWith_of_result_eq (.ln a) s (opLn_of_isZero params h)
  · exact answersWith_of_result_eq (.ln a) s (opLn_of_negative params h)
  · exact answersWith_of_result_eq (.ln PINF) s (opLn_PINF params)
  · rw [signBit_eq, decide_eq_false_iff_not] at hs
    rw [opNorm12_toNat]
    omega
  · refine answersWith_of_result_eq (.ln a) s ((opLn_of_positive params hfin h0 hs).trans ?_)
    rw [productAdd_params, expValue, expBits_toNat, lnPoly]
    simp only [addProduct_params]
    rfl

/-- Settles O38: every exit answers with a NaN, an infinity or a zero, and the reconstruction never sets an exponent
field of 0 (`isSub_expReconstruct`). -/
theorem exponentialIsNeverSubnormal : Obligations.ExponentialIsNeverSubnormal := by
  intro p a hcnan
  cases hnan : isNaN a
  · by_cases hpinf : fmul p a LOG2_E = PINF
    · rw [opExp_of_quotient_PINF p hnan hpinf]; decide
    by_cases hninf : fmul p a LOG2_E = NINF
    · rw [opExp_of_quotient_NINF p hnan hninf]; decide
    · rw [opExp_eq_expReconstruct hnan rfl hpinf hninf]
      exact isSub_expReconstruct _ _
  · rw [opExp_of_isNaN p hnan]
    exact isSub_of_isNaN hcnan

/-- Settles O40: `LN` of the negative word is the canonical NaN (`opLn_of_negative`), which runs through the quotient,
the product and `EXP`. -/
theorem logarithmsAndPowersOfNegativesAreNaN : Obligations.LogarithmsAndPowersOfNegativesAreNaN := by
  intro a b s h
  have hnan : isNaN CNAN = true := by decide
  have hln : opLn params a = CNAN := opLn_of_negative params h
  refine ⟨answersWith_of_result_eq (.log2 a) s ?_, answersWith_of_result_eq (.log10 a) s ?_,
    answersWith_of_result_eq (.log a b) s ?_, answersWith_of_result_eq (.log b a) s ?_,
    answersWith_of_result_eq (.powf a b) s ?_⟩
  · rw [result, opLog2, hln]; exact fdiv_of_isNaN params (.inl hnan)
  · rw [result, opLog10, hln]; exact fdiv_of_isNaN params (.inl hnan)
  · rw [result, opLog, hln]; exact fdiv_of_isNaN params (.inl hnan)
  · rw [result, opLog, hln]; exact fdiv_of_isNaN params (.inr hnan)
  · rw [result, opPowf, hln, fmul_of_isNaN params (.inr hnan)]; exact opExp_of_isNaN params hnan

/-- Settles O41: a zero times the logarithm, which is finite (`isFinite_opLn`), is a zero, and its exponential is one
(`opExp_of_tiny`). -/
theorem zeroPowerOfAPositiveWordIsOne : Obligations.ZeroPowerOfAPositiveWordIsOne := by
  intro a b s hfin h0 hs hb
  have hbfin : isFinite b = true := isFinite_of_magnitude_lt (by rw [(magnitude_zero_iff b).2 hb]; positivity)
  have hprod : magnitude (fmul params b (opLn params a)) ≤ 2 ^ 124 := by
    rw [fmul_eq_round32 hbfin (isFinite_opLn hfin h0 hs), (magnitude_zero_iff b).2 hb, Nat.zero_mul]
    exact magnitude_round32_le _ (by norm_num) (Nat.two_pow_pos 149) (Nat.zero_le _)
  exact answersWith_of_result_eq (.powf a b) s (opExp_of_tiny hprod)

/-- Settles O42: the argument split leaves at most `2^-25`, and the series is one (`opExp_of_tiny`). -/
theorem exponentialOfTinyWordsIsOne : Obligations.ExponentialOfTinyWordsIsOne :=
  fun a s h => answersWith_of_result_eq (.exp a) s (opExp_of_tiny h)

/-- Settles O37: one equation of `opExp` per exit, and one of `expReconstruct` per range of the exponent; with the
default parameters put in, the four passes are those of the definition. -/
theorem exponentialFollowsItsDatapath : Obligations.ExponentialFollowsItsDatapath := by
  intro a st t kf rr pass s e2
  refine ⟨fun h => ?_, fun h ht => ?_, fun h ht => ?_, fun h hpinf hninf => ?_⟩
  · exact answersWith_of_result_eq (.exp a) st (opExp_of_isNaN params h)
  · exact answersWith_of_result_eq (.exp a) st (opExp_of_quotient_PINF params h ht)
  · exact answersWith_of_result_eq (.exp a) st (opExp_of_quotient_NINF params h ht)
  · have hexp : opExp params a = expReconstruct s (value kf / 2 ^ 149) :=
      opExp_eq_expReconstruct h rfl hpinf hninf
    have he2 : e2 = (expBits s).toNat + value kf / 2 ^ 149 := by rw [expBits_toNat]
    rw [he2]
    refine ⟨fun hge => ?_, fun hle => ?_, fun hlo hhi => ?_⟩
    · exact answersWith_of_result_eq (.exp a) st (hexp.trans (expReconstruct_of_overflow hge))
    · exact answersWith_of_result_eq (.exp a) st (hexp.trans (expReconstruct_of_underflow hle))
    · exact answersWith_of_result_eq (.exp a) st (hexp.trans (expReconstruct_of_in_range hlo hhi))

/-- Settles O39: the compositions are the definitions of the four results. -/
theorem logarithmsAndPowersAreComposed : Obligations.LogarithmsAndPowersAreComposed :=
  fun a b s => ⟨everyInstructionAnswersOnce (.log2 a) s, everyInstructionAnswersOnce (.log10 a) s,
    everyInstructionAnswersOnce (.log a b) s, everyInstructionAnswersOnce (.powf a b) s⟩

end

/-! PROOFS of the statements of `60_exceptions.md` and `70_reset_and_hazards.md`: a step with reset, the output ports,
and a step in which the host takes no response (R60, R210, R230, R234, R237). -/
section
namespace Sys2Proof.Machine

open Sys2Proof.Config

/-! ### The output ports -/

/-- `cmd_ready` is 1 where there is room in `Q` and no reset (R60, R230). -/
theorem State.portOut_cmdReady_iff (s : State) :
    s.portOut.cmdReady = true ↔ s.q.length < qdepth ∧ s.portIn.rst = false := by
  simp [State.portOut, State.portOutAt, State.cmdReadyAt]

/-- `rsp_valid` is 1 where there is a response in `Q` and no reset (R60, R230). -/
theorem State.portOut_rspValid_iff (s : State) :
    s.portOut.rspValid = true ↔ s.q ≠ [] ∧ s.portIn.rst = false := by
  simp [State.portOut, State.portOutAt, State.rspValid]

/-- Without reset the unit offers the head of `Q`: `rsp_r` and `rsp_ill` are its fields (R60). -/
theorem State.portOut_response_of_q_cons {s : State} {x : Response} {rest : List Response}
    (hrst : s.portIn.rst = false) (hq : s.q = x :: rest) :
    s.portOut.rspValid = true ∧ s.portOut.rspR = x.r ∧ s.portOut.rspIll = x.ill := by
  have hvalid : s.rspValid = true := by simp [State.rspValid, hrst, hq]
  simp [State.portOut, State.portOutAt, hvalid, hq]

/-! ### One step -/

/-- Reset wins: the step uses up its inputs and empties `Q`, and does nothing else (R213, R230). -/
theorem step_of_rst {s : State} (hrst : s.portIn.rst = true) : step s = .next s.nextInputs.clear := by
  rw [step, stepBy, if_pos hrst]

/-- Without reset, a step in which the host takes no response keeps `Q` and appends to it the response to the command
accepted in the step, if there is one; nothing is observed (R26, R60). -/
theorem step_of_not_rspReady {s : State} (hrst : s.portIn.rst = false) (hready : s.portIn.rspReady = false) :
    ∃ t, step s = .next t ∧ t.observed = s.observed ∧
      t.q = s.q ++ if s.acceptsAt qdepth then [respond params s.portIn.command] else [] := by
  refine ⟨_, step_of_not_rst hrst, ?_⟩
  rw [State.afterDeliver_of_not_rspReady hready]
  split <;> simp

end Sys2Proof.Machine

open Sys2Proof Sys2Proof.Machine Sys2Proof.Config

/-- Settles O46: a step is a reset, an acceptance or neither (`step_cases`), and each of the three answers a next
state. -/
theorem noStepFaultsOrRefuses : Obligations.NoStepFaultsOrRefuses := by
  intro s
  obtain ⟨-, hreset⟩ | ⟨-, -, -, haccept⟩ | ⟨-, -, hneither⟩ := step_cases s
  · exact ⟨_, hreset⟩
  · exact ⟨_, haccept⟩
  · exact ⟨_, hneither⟩

/-- Settles O49: both handshakes need `rst = 0`, and the step leaves the state of `step_of_rst`, whose empty queue has
room for a command and offers no response. -/
theorem resetDropsEverythingInFlight : Obligations.ResetDropsEverythingInFlight := by
  intro s hrst
  have hnotReady : s.portOut.cmdReady = false := by
    simpa [hrst] using s.portOut_cmdReady_iff
  have hnotValid : s.portOut.rspValid = false := by
    simpa [hrst] using s.portOut_rspValid_iff
  refine ⟨hnotReady, hnotValid, _, step_of_rst hrst, rfl, rfl, rfl, fun hrelease => ⟨?_, ?_⟩⟩
  · exact (State.portOut_cmdReady_iff _).2 ⟨Nat.succ_pos _, hrelease⟩
  · simpa using (State.portOut_rspValid_iff s.nextInputs.clear).not

/-- Settles O53: a full queue has no room and, as `QDEPTH` is at least 1, a head to offer; with no acceptance and no
delivery the step leaves it as it is (`step_of_not_rspReady`). An empty queue has room. -/
theorem fullQueueOnlyPushesBack : Obligations.FullQueueOnlyPushesBack := by
  intro s hrst
  refine ⟨fun hfull => ?_, fun hempty => ?_⟩
  · have hq : s.q ≠ [] := List.ne_nil_of_length_pos ((Nat.succ_pos _).trans_le hfull)
    have hnotReady : s.portOut.cmdReady = false :=
      Bool.eq_false_of_not_eq_true fun h => hfull.not_gt (s.portOut_cmdReady_iff.1 h).1
    have hnotAccepts : ¬s.acceptsAt qdepth = true :=
      fun h => hfull.not_gt ((State.acceptsAt_iff hrst qdepth).1 h).2
    refine ⟨hnotReady, s.portOut_rspValid_iff.2 ⟨hq, hrst⟩, fun hready => ?_⟩
    obtain ⟨t, hstep, hobs, htq⟩ := step_of_not_rspReady hrst hready
    rw [if_neg hnotAccepts, List.append_nil] at htq
    exact ⟨t, hstep, htq, hobs⟩
  · refine s.portOut_cmdReady_iff.2 ⟨?_, hrst⟩
    rw [hempty]
    exact Nat.succ_pos _

/-- Settles O54: the step only appends to `Q` (`step_of_not_rspReady`), so the head of `Q`, which is what the unit
offers (`State.portOut_response_of_q_cons`), is the same before and after. -/
theorem offeredResponseIsHeldUntilTaken : Obligations.OfferedResponseIsHeldUntilTaken := by
  intro s t hvalid hready hstep htrst
  obtain ⟨hne, hrst⟩ := s.portOut_rspValid_iff.1 hvalid
  obtain ⟨x, rest, hq⟩ := List.exists_cons_of_ne_nil hne
  obtain ⟨u, hstep', -, htq⟩ := step_of_not_rspReady hrst hready
  obtain rfl := Host.Outcome.next.inj (hstep'.symm.trans hstep)
  rw [hq, List.cons_append] at htq
  obtain ⟨-, hr, hill⟩ := State.portOut_response_of_q_cons hrst hq
  obtain ⟨hvalid', hr', hill'⟩ := State.portOut_response_of_q_cons htrst htq
  exact ⟨hvalid', hr'.trans hr.symm, hill'.trans hill.symm⟩

end
